-- ==== Sys2Proof/Word.lean ====
section
/-! DEFINITION. The word types of the hardware (00_scope.md, rule R4 and section 5): 8-bit bytes, 16-bit
addresses and pairs, all unsigned and modular, and the 2-bit pixel values of the tile decoder. -/

namespace Sys2Proof

/-- An 8-bit value: a memory cell, a data register (R4, XLEN8). -/
abbrev Byte := BitVec 8

/-- A 16-bit value: an address, `pc`, `sp`, a register pair (R4, ADDRW, PCW, SPW). Its `+` and `-` wrap. -/
abbrev Word := BitVec 16

/-- A 2-bit pixel value, the four-level palette index 0 .. 3 (R22, R205). -/
abbrev Pixel := BitVec 2

end Sys2Proof
end

