-- ==== Sys2Proof/Machine/Bytes.lean ====
section
/-! DEFINITION. Splitting and joining 16-bit words (42_add.md rule R132 (c); 20_memory.md rule R47). -/

namespace Sys2Proof.Machine

/-- `v[15:8]`, the high byte. -/
def hiByte (v : Word) : Byte := v.extractLsb' 8 8

/-- `v[7:0]`, the low byte. -/
def loByte (v : Word) : Byte := v.extractLsb' 0 8

/-- `(hi << 8) | lo`, that is `hi ++ lo`. -/
def joinBytes (hi lo : Byte) : Word := hi ++ lo

end Sys2Proof.Machine
end

