-- ==== Sys2Proof/Config.lean ====
section
/-! DEFINITION. The parameters of the hardware (00_scope.md, rule R4): what is fixed for one machine. -/

namespace Sys2Proof

/-- ENTRY, the reset value of `pc` (R4, R261). -/
abbrev Config.entry : Word := 0x0100

/-- SP_RESET, the reset value of `sp`. DESIGN CHOICE (unsafe, log 1): R26 leaves it unspecified and does not adopt
the SM83's 0xFFFE; claims about reset are stated of `State.resetWith sp` for every `sp`. -/
abbrev Config.spReset : Word := 0x0000

/-- PREFIX, the two-byte-opcode escape value (R4, R102). -/
abbrev Config.prefixByte : Byte := 0xCB

/-- VRAM_BEGIN, the first address of the video window (R4). UNVERIFIED (unsafe, log 2): the spec's number, which the
spec marks as general knowledge (D8). -/
abbrev Config.vramBegin : Nat := 0x8000

/-- VRAM_SIZE, the bytes of the video window (R4). UNVERIFIED (unsafe, log 2): as `Config.vramBegin`. -/
abbrev Config.vramSize : Nat := 0x2000

/-- NTILES, the entries of the tile cache (R4, R22). -/
abbrev Config.nTiles : Nat := 384

/-- TILE_BYTES: 8 rows of 2 bytes (R4). -/
abbrev Config.tileBytes : Nat := 16

/-- TILE_DATA_SIZE, the bytes of the window that are decoded (R4, R203). -/
abbrev Config.tileDataSize : Nat := 0x1800

/-- A window-relative address of the VDEC, bounded by VRAM_SIZE (R21, R213): no other offset is representable. -/
abbrev Offset := Fin Config.vramSize

end Sys2Proof
end

