-- ==== Sys2Proof/Syntax.lean ====
section
/-! DEFINITION. The instructions as syntax: the closed type of 30_encoding.md rule R90 (`Kind`, with its operand
descriptors), the 103 instructions of the opcode table (`Instr`, one constructor per row of opcode_table.json), what
kind each is, and the instruction as it stands in memory with its operand bytes (`Line`, R89). -/

namespace Sys2Proof

/-- A data register operand, the spec's `Reg8` (R10, R90). -/
inductive Reg8 where
  | a | b | c | d | e | h | l
deriving DecidableEq, Repr

/-- A load's source operand, the spec's `Src8`: a register, the byte at HL, or the immediate byte (R90, R140). -/
inductive Src8 where
  | reg (r : Reg8)
  | atHL
  | d8
deriving DecidableEq, Repr

/-- A load's target operand, the spec's `Dst8`: a register or the byte at HL (R90, R140). -/
inductive Dst8 where
  | reg (r : Reg8)
  | atHL
deriving DecidableEq, Repr

/-- A register pair operand of PUSH and POP, and HL as an address (R14, R90). -/
inductive Pair where
  | bc | de | hl | af
deriving DecidableEq, Repr

/-- The 5-way condition of JP, CALL and RET (R90, R108). -/
inductive Cond where
  | always | notZero | notCarry | zero | carry
deriving DecidableEq, Repr

/-- The decoded Instruction of R90: a tagged variant over the nine operation kinds. -/
inductive Kind where
  | nop
  | halt
  | add (r : Reg8)
  | ld (dst : Dst8) (src : Src8)
  | jp (c : Cond)
  | call (c : Cond)
  | ret (c : Cond)
  | push (p : Pair)
  | pop (p : Pair)
deriving DecidableEq, Repr

/-- The instructions, one per mapped opcode byte and per row of opcode_table.json (R80). None has an argument: the
operand bytes are no input of decoding (R82) and are read from memory by execute (R104; DEDUCED, safe, log 9). In a
load's name the target comes first; `AtHL` is the operand (HL) and `Imm` the operand d8. -/
inductive Instr where
  -- NOP and HALT (41_nop_halt.md, R120, R121)
  | nop | halt
  -- ADD A,r (42_add.md, R130)
  | addAB | addAC | addAD | addAE | addAH | addAL | addAA
  -- LD r,r' (43_load.md, R141)
  | ldBB | ldBC | ldBD | ldBE | ldBH | ldBL | ldBA | ldCB | ldCC | ldCD | ldCE | ldCH | ldCL | ldCA | ldDB
  | ldDC | ldDD | ldDE | ldDH | ldDL | ldDA | ldEB | ldEC | ldED | ldEE | ldEH | ldEL | ldEA | ldHB | ldHC
  | ldHD | ldHE | ldHH | ldHL | ldHA | ldLB | ldLC | ldLD | ldLE | ldLH | ldLL | ldLA | ldAB | ldAC | ldAD
  | ldAE | ldAH | ldAL | ldAA
  -- LD r,(HL) (43_load.md, R142)
  | ldBAtHL | ldCAtHL | ldDAtHL | ldEAtHL | ldHAtHL | ldLAtHL | ldAAtHL
  -- LD (HL),r (43_load.md, R143)
  | ldAtHLB | ldAtHLC | ldAtHLD | ldAtHLE | ldAtHLH | ldAtHLL | ldAtHLA
  -- LD r,d8 (43_load.md, R144)
  | ldBImm | ldCImm | ldDImm | ldEImm | ldHImm | ldLImm | ldAImm
  -- LD (HL),d8 (43_load.md, R145)
  | ldAtHLImm
  -- JP a16 and JP cc,a16 (44_jump_call_return.md, R160, R161)
  | jpNZ | jp | jpZ | jpNC | jpC
  -- CALL a16 and CALL cc,a16 (44_jump_call_return.md, R162, R163)
  | callNZ | callZ | call | callNC | callC
  -- RET and RET cc (44_jump_call_return.md, R164, R165)
  | retNZ | retZ | ret | retNC | retC
  -- PUSH rr (45_push_pop.md, R183)
  | pushBC | pushDE | pushHL | pushAF
  -- POP rr (45_push_pop.md, R184)
  | popBC | popDE | popHL | popAF
deriving DecidableEq, Repr

/-- The operation kind and operands of each instruction: the "mnemonic" column of R80's table. -/
def Instr.kind : Instr → Kind
  | .nop => .nop
  | .halt => .halt
  | .addAB => .add .b
  | .addAC => .add .c
  | .addAD => .add .d
  | .addAE => .add .e
  | .addAH => .add .h
  | .addAL => .add .l
  | .addAA => .add .a
  | .ldBB => .ld (.reg .b) (.reg .b)
  | .ldBC => .ld (.reg .b) (.reg .c)
  | .ldBD => .ld (.reg .b) (.reg .d)
  | .ldBE => .ld (.reg .b) (.reg .e)
  | .ldBH => .ld (.reg .b) (.reg .h)
  | .ldBL => .ld (.reg .b) (.reg .l)
  | .ldBA => .ld (.reg .b) (.reg .a)
  | .ldCB => .ld (.reg .c) (.reg .b)
  | .ldCC => .ld (.reg .c) (.reg .c)
  | .ldCD => .ld (.reg .c) (.reg .d)
  | .ldCE => .ld (.reg .c) (.reg .e)
  | .ldCH => .ld (.reg .c) (.reg .h)
  | .ldCL => .ld (.reg .c) (.reg .l)
  | .ldCA => .ld (.reg .c) (.reg .a)
  | .ldDB => .ld (.reg .d) (.reg .b)
  | .ldDC => .ld (.reg .d) (.reg .c)
  | .ldDD => .ld (.reg .d) (.reg .d)
  | .ldDE => .ld (.reg .d) (.reg .e)
  | .ldDH => .ld (.reg .d) (.reg .h)
  | .ldDL => .ld (.reg .d) (.reg .l)
  | .ldDA => .ld (.reg .d) (.reg .a)
  | .ldEB => .ld (.reg .e) (.reg .b)
  | .ldEC => .ld (.reg .e) (.reg .c)
  | .ldED => .ld (.reg .e) (.reg .d)
  | .ldEE => .ld (.reg .e) (.reg .e)
  | .ldEH => .ld (.reg .e) (.reg .h)
  | .ldEL => .ld (.reg .e) (.reg .l)
  | .ldEA => .ld (.reg .e) (.reg .a)
  | .ldHB => .ld (.reg .h) (.reg .b)
  | .ldHC => .ld (.reg .h) (.reg .c)
  | .ldHD => .ld (.reg .h) (.reg .d)
  | .ldHE => .ld (.reg .h) (.reg .e)
  | .ldHH => .ld (.reg .h) (.reg .h)
  | .ldHL => .ld (.reg .h) (.reg .l)
  | .ldHA => .ld (.reg .h) (.reg .a)
  | .ldLB => .ld (.reg .l) (.reg .b)
  | .ldLC => .ld (.reg .l) (.reg .c)
  | .ldLD => .ld (.reg .l) (.reg .d)
  | .ldLE => .ld (.reg .l) (.reg .e)
  | .ldLH => .ld (.reg .l) (.reg .h)
  | .ldLL => .ld (.reg .l) (.reg .l)
  | .ldLA => .ld (.reg .l) (.reg .a)
  | .ldAB => .ld (.reg .a) (.reg .b)
  | .ldAC => .ld (.reg .a) (.reg .c)
  | .ldAD => .ld (.reg .a) (.reg .d)
  | .ldAE => .ld (.reg .a) (.reg .e)
  | .ldAH => .ld (.reg .a) (.reg .h)
  | .ldAL => .ld (.reg .a) (.reg .l)
  | .ldAA => .ld (.reg .a) (.reg .a)
  | .ldBAtHL => .ld (.reg .b) .atHL
  | .ldCAtHL => .ld (.reg .c) .atHL
  | .ldDAtHL => .ld (.reg .d) .atHL
  | .ldEAtHL => .ld (.reg .e) .atHL
  | .ldHAtHL => .ld (.reg .h) .atHL
  | .ldLAtHL => .ld (.reg .l) .atHL
  | .ldAAtHL => .ld (.reg .a) .atHL
  | .ldAtHLB => .ld .atHL (.reg .b)
  | .ldAtHLC => .ld .atHL (.reg .c)
  | .ldAtHLD => .ld .atHL (.reg .d)
  | .ldAtHLE => .ld .atHL (.reg .e)
  | .ldAtHLH => .ld .atHL (.reg .h)
  | .ldAtHLL => .ld .atHL (.reg .l)
  | .ldAtHLA => .ld .atHL (.reg .a)
  | .ldBImm => .ld (.reg .b) .d8
  | .ldCImm => .ld (.reg .c) .d8
  | .ldDImm => .ld (.reg .d) .d8
  | .ldEImm => .ld (.reg .e) .d8
  | .ldHImm => .ld (.reg .h) .d8
  | .ldLImm => .ld (.reg .l) .d8
  | .ldAImm => .ld (.reg .a) .d8
  | .ldAtHLImm => .ld .atHL .d8
  | .jpNZ => .jp .notZero
  | .jp => .jp .always
  | .jpZ => .jp .zero
  | .jpNC => .jp .notCarry
  | .jpC => .jp .carry
  | .callNZ => .call .notZero
  | .callZ => .call .zero
  | .call => .call .always
  | .callNC => .call .notCarry
  | .callC => .call .carry
  | .retNZ => .ret .notZero
  | .retZ => .ret .zero
  | .ret => .ret .always
  | .retNC => .ret .notCarry
  | .retC => .ret .carry
  | .pushBC => .push .bc
  | .pushDE => .push .de
  | .pushHL => .push .hl
  | .pushAF => .push .af
  | .popBC => .pop .bc
  | .popDE => .pop .de
  | .popHL => .pop .hl
  | .popAF => .pop .af

/-- The three instruction formats of the unprefixed space (R70 to R73). -/
inductive Format where
  | f1 | f2 | f3
deriving DecidableEq, Repr

/-- The length in bytes of a format (R70). -/
def Format.length : Format → Nat
  | .f1 => 1
  | .f2 => 2
  | .f3 => 3

/-- The format of a kind: loads from d8 are F2, JP and CALL are F3, all else F1 (R80, R83). -/
def Kind.format : Kind → Format
  | .nop => .f1
  | .halt => .f1
  | .add _ => .f1
  | .ld _ (.reg _) => .f1
  | .ld _ .atHL => .f1
  | .ld _ .d8 => .f2
  | .jp _ => .f3
  | .call _ => .f3
  | .ret _ => .f1
  | .push _ => .f1
  | .pop _ => .f1

/-- The format of an instruction. -/
def Instr.format (i : Instr) : Format := i.kind.format

/-- The length of an instruction in bytes (R83). -/
def Instr.length (i : Instr) : Nat := i.format.length

/-- The operand bytes that follow an opcode: none, the immediate byte, or the 16-bit address (R72, R73). -/
inductive Operand where
  | none
  | d8 (v : Byte)
  | a16 (w : Word)
deriving DecidableEq, Repr

/-- One instruction as it stands in memory: the opcode's instruction and its operand (R89: one assembler line). -/
structure Line where
  op : Instr
  operand : Operand
deriving DecidableEq, Repr

end Sys2Proof
end

