-- ==== Sys2Proof/WellFormed.lean ====
section
/-! DEFINITION. Well-formedness of the syntax: which kinds are instructions at all (30_encoding.md rule R90) and which
operand goes with which opcode (rules R70 to R73). -/

namespace Sys2Proof

/-- R90: every value of `Kind` is an instruction but `LD (HL),(HL)`, whose would-be byte 0x76 is HALT. -/
def Kind.wf : Kind → Bool
  | .ld .atHL .atHL => false
  | .ld .atHL (.reg _) => true
  | .ld .atHL .d8 => true
  | .ld (.reg _) _ => true
  | .nop => true
  | .halt => true
  | .add _ => true
  | .jp _ => true
  | .call _ => true
  | .ret _ => true
  | .push _ => true
  | .pop _ => true

/-- The operand a format carries: none after F1, d8 after F2, a16 after F3 (R70 to R73). -/
def Operand.fits : Operand → Format → Bool
  | .none, .f1 => true
  | .d8 _, .f2 => true
  | .a16 _, .f3 => true
  | .none, .f2 => false
  | .none, .f3 => false
  | .d8 _, .f1 => false
  | .d8 _, .f3 => false
  | .a16 _, .f1 => false
  | .a16 _, .f2 => false

/-- A line is well-formed if its kind is one and its operand is the one its format carries. -/
def Line.wf (l : Line) : Bool := l.op.kind.wf && l.operand.fits l.op.format

end Sys2Proof
end

