-- ==== Sys2Proof/Decode.lean ====
section
/-! DEFINITION. Decoding and encoding (30_encoding.md). The decoder is written from the byte table of R80 (one row per
mapped byte); the encoder, after it, from the bit fields of R71 to R77, so that their agreement says something. -/

namespace Sys2Proof


/-- Rows of R80: NOP and HALT (41_nop_halt.md, R120, R121). -/
def nopHaltRows : List (Byte × Instr) :=
  [(0x00, .nop), (0x76, .halt)]

/-- Rows of R80: ADD A,r (42_add.md, R130). -/
def addRows : List (Byte × Instr) :=
  [(0x80, .addAB), (0x81, .addAC), (0x82, .addAD), (0x83, .addAE), (0x84, .addAH), (0x85, .addAL), (0x87, .addAA)]

/-- Rows of R80: LD r,r' (43_load.md, R141). -/
def ldRegRegRows : List (Byte × Instr) :=
  [(0x40, .ldBB), (0x41, .ldBC), (0x42, .ldBD), (0x43, .ldBE), (0x44, .ldBH), (0x45, .ldBL), (0x47, .ldBA)] ++
  [(0x48, .ldCB), (0x49, .ldCC), (0x4A, .ldCD), (0x4B, .ldCE), (0x4C, .ldCH), (0x4D, .ldCL), (0x4F, .ldCA)] ++
  [(0x50, .ldDB), (0x51, .ldDC), (0x52, .ldDD), (0x53, .ldDE), (0x54, .ldDH), (0x55, .ldDL), (0x57, .ldDA)] ++
  [(0x58, .ldEB), (0x59, .ldEC), (0x5A, .ldED), (0x5B, .ldEE), (0x5C, .ldEH), (0x5D, .ldEL), (0x5F, .ldEA)] ++
  [(0x60, .ldHB), (0x61, .ldHC), (0x62, .ldHD), (0x63, .ldHE), (0x64, .ldHH), (0x65, .ldHL), (0x67, .ldHA)] ++
  [(0x68, .ldLB), (0x69, .ldLC), (0x6A, .ldLD), (0x6B, .ldLE), (0x6C, .ldLH), (0x6D, .ldLL), (0x6F, .ldLA)] ++
  [(0x78, .ldAB), (0x79, .ldAC), (0x7A, .ldAD), (0x7B, .ldAE), (0x7C, .ldAH), (0x7D, .ldAL), (0x7F, .ldAA)]

/-- Rows of R80: LD r,(HL) (43_load.md, R142). -/
def ldRegAtHLRows : List (Byte × Instr) :=
  [(0x46, .ldBAtHL), (0x4E, .ldCAtHL), (0x56, .ldDAtHL), (0x5E, .ldEAtHL), (0x66, .ldHAtHL), (0x6E, .ldLAtHL), (0x7E, .ldAAtHL)]

/-- Rows of R80: LD (HL),r (43_load.md, R143). -/
def ldAtHLRegRows : List (Byte × Instr) :=
  [(0x70, .ldAtHLB), (0x71, .ldAtHLC), (0x72, .ldAtHLD), (0x73, .ldAtHLE), (0x74, .ldAtHLH), (0x75, .ldAtHLL), (0x77, .ldAtHLA)]

/-- Rows of R80: LD r,d8 (43_load.md, R144). -/
def ldRegImmRows : List (Byte × Instr) :=
  [(0x06, .ldBImm), (0x0E, .ldCImm), (0x16, .ldDImm), (0x1E, .ldEImm), (0x26, .ldHImm), (0x2E, .ldLImm), (0x3E, .ldAImm)]

/-- Rows of R80: LD (HL),d8 (43_load.md, R145). -/
def ldAtHLImmRows : List (Byte × Instr) :=
  [(0x36, .ldAtHLImm)]

/-- Rows of R80: JP a16 and JP cc,a16 (44_jump_call_return.md, R160, R161). -/
def jpRows : List (Byte × Instr) :=
  [(0xC2, .jpNZ), (0xC3, .jp), (0xCA, .jpZ), (0xD2, .jpNC), (0xDA, .jpC)]

/-- Rows of R80: CALL a16 and CALL cc,a16 (44_jump_call_return.md, R162, R163). -/
def callRows : List (Byte × Instr) :=
  [(0xC4, .callNZ), (0xCC, .callZ), (0xCD, .call), (0xD4, .callNC), (0xDC, .callC)]

/-- Rows of R80: RET and RET cc (44_jump_call_return.md, R164, R165). -/
def retRows : List (Byte × Instr) :=
  [(0xC0, .retNZ), (0xC8, .retZ), (0xC9, .ret), (0xD0, .retNC), (0xD8, .retC)]

/-- Rows of R80: PUSH rr (45_push_pop.md, R183). -/
def pushRows : List (Byte × Instr) :=
  [(0xC5, .pushBC), (0xD5, .pushDE), (0xE5, .pushHL), (0xF5, .pushAF)]

/-- Rows of R80: POP rr (45_push_pop.md, R184). -/
def popRows : List (Byte × Instr) :=
  [(0xC1, .popBC), (0xD1, .popDE), (0xE1, .popHL), (0xF1, .popAF)]

/-- The unprefixed opcode table: exactly the 103 mapped bytes (R80). UNVERIFIED (unsafe, log 3) but for 0xC3 and 0x81
(R81): the spec marks the other byte values as general knowledge (D3). -/
def opcodeTable : List (Byte × Instr) :=
  nopHaltRows ++ addRows ++ ldRegRegRows ++ ldRegAtHLRows ++ ldAtHLRegRows ++ ldRegImmRows ++ ldAtHLImmRows ++
  jpRows ++ callRows ++ retRows ++ pushRows ++ popRows

/-- The instruction an opcode table gives a byte, if it has a row. -/
def lookupOpcode : List (Byte × Instr) → Byte → Option Instr
  | [], _ => none
  | (b, i) :: rows, op => if op = b then some i else lookupOpcode rows op

/-- The decoder proper, `decode(opcode_byte, prefixed)` of R82: a pure function of the byte and the prefix boolean. The
prefixed table maps nothing (R84). -/
def decodeOpcode (op : Byte) (prefixed : Bool) : Option Instr :=
  if prefixed then none else lookupOpcode opcodeTable op

/-- Why a list of bytes does not decode to an instruction with its operands. -/
inductive DecodeError where
  /-- There is no byte, or no second byte after the 0xCB escape. -/
  | noOpcode
  /-- The unprefixed byte has no row in the table (R86). -/
  | unmapped (op : Byte)
  /-- The byte after 0xCB: the prefixed table is empty (R84, R85). -/
  | unmappedPrefixed (op : Byte)
  /-- The list ends before the instruction's operand bytes do (DESIGN CHOICE, safe, log 17: memory never ends). -/
  | truncated (i : Instr)
deriving DecidableEq, Repr

/-- Reads the operand of `i` from the bytes after its opcode, low byte first (R72, R73), and gives the rest. -/
def takeOperand (i : Instr) (bs : List Byte) : Except DecodeError (Line × List Byte) :=
  match i.format, bs with
  | .f1, bs => .ok (⟨i, .none⟩, bs)
  | .f2, v :: bs => .ok (⟨i, .d8 v⟩, bs)
  | .f3, lo :: hi :: bs => .ok (⟨i, .a16 (Machine.joinBytes hi lo)⟩, bs)
  | .f2, [] => .error (.truncated i)
  | .f3, [] => .error (.truncated i)
  | .f3, [_] => .error (.truncated i)

/-- Decodes the instruction at the head of a list of bytes: the 0xCB escape is tested on the first byte only (R74, R85),
then the opcode is looked up, then its operand is read. Total on any bytes; what it refuses it names. -/
def decode : List Byte → Except DecodeError (Line × List Byte)
  | [] => .error .noOpcode
  | b0 :: bs =>
    if b0 = Config.prefixByte then
      match bs with
      | [] => .error .noOpcode
      | op :: bs' =>
        match decodeOpcode op true with
        | some i => takeOperand i bs'
        | none => .error (.unmappedPrefixed op)
    else
      match decodeOpcode b0 false with
      | some i => takeOperand i bs
      | none => .error (.unmapped b0)

/-- The bytes of a table word: `nbits / 8` of them, bit 0 the least significant bit of the first byte, and zeros up to
the longest instruction (3 bytes). -/
def tableBytes (nbits w : Nat) : List Byte :=
  let v := w % 2 ^ nbits
  [BitVec.ofNat 8 v, BitVec.ofNat 8 (v / 2 ^ 8), BitVec.ofNat 8 (v / 2 ^ 16)]

/-- The instruction the decoder reads from a word numbered as opcode_table.json numbers it; none where it refuses. -/
def decodeTableWord (nbits w : Nat) : Option Instr :=
  match decode (tableBytes nbits w) with
  | .ok (l, _) => some l.op
  | .error _ => none

/-! The encoder. -/

/-- Register code (R75). -/
def Reg8.code : Reg8 → BitVec 3
  | .b => 0
  | .c => 1
  | .d => 2
  | .e => 3
  | .h => 4
  | .l => 5
  | .a => 7

/-- Target code in field `y`: a register's, or 6 for (HL) (R72, R75). -/
def Dst8.code : Dst8 → BitVec 3
  | .reg r => r.code
  | .atHL => 6

/-- Pair code (R76). -/
def Pair.code : Pair → BitVec 2
  | .bc => 0
  | .de => 1
  | .hl => 2
  | .af => 3

/-- Condition code; the unconditional condition has none (R77). -/
def Cond.code : Cond → Option (BitVec 2)
  | .notZero => some 0
  | .zero => some 1
  | .notCarry => some 2
  | .carry => some 3
  | .always => none

/-- The opcode byte of a kind, assembled from its bit fields (R71, R72, R73, R80). -/
def Kind.opcode : Kind → Byte
  | .nop => 0b00000000#8
  | .halt => 0b01110110#8
  | .add r => 0b10000#5 ++ r.code
  | .ld dst (.reg r) => 0b01#2 ++ dst.code ++ r.code
  | .ld dst .atHL => 0b01#2 ++ dst.code ++ 0b110#3
  | .ld dst .d8 => 0b00#2 ++ dst.code ++ 0b110#3
  | .jp c => match c.code with
    | some cc => 0b110#3 ++ cc ++ 0b010#3
    | none => 0b11000011#8
  | .call c => match c.code with
    | some cc => 0b110#3 ++ cc ++ 0b100#3
    | none => 0b11001101#8
  | .ret c => match c.code with
    | some cc => 0b110#3 ++ cc ++ 0b000#3
    | none => 0b11001001#8
  | .push p => 0b11#2 ++ p.code ++ 0b0101#4
  | .pop p => 0b11#2 ++ p.code ++ 0b0001#4

/-- The opcode byte of an instruction. -/
def Instr.opcode (i : Instr) : Byte := i.kind.opcode

/-- The operand bytes in memory order, the low byte of an address first (R72, R73, R47). -/
def Operand.bytes : Operand → List Byte
  | .none => []
  | .d8 v => [v]
  | .a16 w => [Machine.loByte w, Machine.hiByte w]

/-- The bytes of a well-formed line: opcode first, then operand bytes (R49, R70). -/
def encode (l : Line) : List Byte := l.op.opcode :: l.operand.bytes

end Sys2Proof
end

