-- ==== Sys2Proof/Machine/State.lean ====
section
/-! DEFINITION. The whole state of the machine as plain data (10_state.md), the reasons a Step can end a run
(60_exceptions.md), and the state after reset (10_state.md rule R26, 70_reset_and_hazards.md rule R260). -/

namespace Sys2Proof.Machine

/-- The seven 8-bit data registers (R10): independent cells, none hardwired, banked or aliased. -/
structure Regs where
  a : Byte
  b : Byte
  c : Byte
  d : Byte
  e : Byte
  h : Byte
  l : Byte
deriving DecidableEq, Repr

/-- The flags register: four independent booleans zero, subtract, half-carry, carry (R12). -/
structure Flags where
  z : Bool
  n : Bool
  h : Bool
  c : Bool
deriving DecidableEq, Repr

/-- Byte cells by address, in canonical form: addresses strictly rising and no cell equal to 0x00, which is what an
unlisted address reads as (R20, R26: memory zeroed; log 11). -/
abbrev Memory := List Host.Cell

/-- One row of a tile: 8 pixels, index 0 the leftmost (R22). -/
abbrev TileRow := Vector Pixel 8

/-- A tile row of pixels 0, what an unlisted row of the cache reads as (R26). -/
abbrev blankRow : TileRow := Vector.replicate 8 0

/-- The video memory decoder's state (R200): its byte buffer by window offset (R21) and its cache of decoded tiles (R22),
row `row` of tile `t` under the key `8 * t + row`; both in the canonical form of `Memory` (log 11). -/
structure Vdec where
  vram : Memory
  tiles : List (Nat × TileRow)
deriving DecidableEq, Repr

/-- The fatal conditions of a Step (R230). Each stops the machine for good and is safe: no run goes on from it. -/
inductive Fault where
  /-- Raised by the decode phase when the opcode has no row (R103, R231); it reports the failing bytes, the prefix flag
  and the address of the first byte fetched. Safe: the spec calls it fatal. -/
  | decodeFailure (bytes : List Byte) (prefixed : Bool) (pc : Word)
  /-- A decoded instruction without an execute rule (R232). Nobody raises it: the class is empty. Safe. -/
  | unimplemented (bytes : List Byte) (prefixed : Bool) (pc : Word)
  /-- Raised by a Step that decodes an instruction other than HALT while `halted` (R106, R246). Safe: the spec calls
  going on undefined. -/
  | undefinedWhileHalted (pc : Word)
deriving DecidableEq, Repr

/-- Why the model gives an instruction no meaning. -/
inductive Refusal where
  /-- An instruction of the table without a meaning yet, by mnemonic. No arm of `exec` answers it. Safe. -/
  | notModelled (mnemonic : String)
deriving DecidableEq, Repr

/-- The run status (R19): running, or stopped for good by a fatal condition. -/
inductive Status where
  | running
  | fatal (info : Fault)
deriving DecidableEq, Repr

/-- The whole state (10_state.md): data registers R10, flags R12, `pc` R16, `sp` R17, `halted` R18, `status` R19, the
addressable memory R20, and the video memory decoder R21, R22. -/
structure State where
  regs : Regs
  flags : Flags
  pc : Word
  sp : Word
  halted : Bool
  status : Status
  mem : Memory
  vdec : Vdec
deriving DecidableEq, Repr

/-- The machine after reset with SP_RESET = `sp` (R26, R260): the spec leaves `sp` open, so it is an argument. -/
def State.resetWith (sp : Word) : State where
  regs := ⟨0, 0, 0, 0, 0, 0, 0⟩
  flags := ⟨false, false, false, false⟩
  pc := Config.entry
  sp := sp
  halted := false
  status := .running
  mem := []
  vdec := ⟨[], []⟩

/-- The machine right after reset, with the SP_RESET that `Config` names (log 1). -/
def State.reset : State := State.resetWith Config.spReset

end Sys2Proof.Machine
end

