-- ==== Sys2Proof/Machine/Cells.lean ====
section
/-! DEFINITION. Sparse storage in one canonical form, shared by the addressable memory (10_state.md rule R20), the VDEC
buffer (R21) and the tile cache (R22). A total array with a default value is kept as the list of the entries that
differ from the default, keys strictly rising, so that equal arrays are equal lists (log 11). -/

namespace Sys2Proof.Machine

/-- What the array holds at `k`: the listed value, else the default `d`. -/
def Cells.read {α : Type} (d : α) : List (Nat × α) → Nat → α
  | [], _ => d
  | (k', v) :: cs, k => if k = k' then v else Cells.read d cs k

/-- The array with the default at `k`: every entry for `k` is dropped. -/
def Cells.remove {α : Type} (k : Nat) (cs : List (Nat × α)) : List (Nat × α) := cs.filter fun c => c.1 != k

/-- Puts an entry before the first one with a later key. -/
def Cells.insert {α : Type} (k : Nat) (v : α) : List (Nat × α) → List (Nat × α)
  | [] => [(k, v)]
  | c :: cs => if k < c.1 then (k, v) :: c :: cs else c :: Cells.insert k v cs

/-- Writes `v` at `k`, keeping the canonical form: writing the default removes the entry. -/
def Cells.write {α : Type} [DecidableEq α] (d : α) (cs : List (Nat × α)) (k : Nat) (v : α) : List (Nat × α) :=
  if v = d then Cells.remove k cs else Cells.insert k v (Cells.remove k cs)

/-- The canonical form: keys strictly rising and below `bound`, no entry equal to the default. -/
abbrev Cells.WF {α : Type} (d : α) (bound : Nat) (cs : List (Nat × α)) : Prop :=
  cs.Pairwise (fun x y => x.1 < y.1) ∧ ∀ c ∈ cs, c.1 < bound ∧ c.2 ≠ d

/-- The canonical form of the addressable memory: 65,536 cells, unlisted ones 0x00 (R20, R26). -/
abbrev Memory.wf (m : Memory) : Prop := Cells.WF (0 : Byte) 0x10000 m

/-- The canonical form of the VDEC's buffer and tile cache (R21, R22). -/
abbrev Vdec.wf (d : Vdec) : Prop :=
  Cells.WF (0 : Byte) Config.vramSize d.vram ∧ Cells.WF blankRow (8 * Config.nTiles) d.tiles

end Sys2Proof.Machine
end

