-- ==== Sys2Proof/Machine/Video.lean ====
section
/-! DEFINITION. The video memory decoder (48_video_tile_decoder.md). Its operations take and give a `Vdec` alone: none
reads or writes a CPU register or memory (R200). -/

namespace Sys2Proof.Machine

/-- The VDEC's `read`, `VramRead` (R208): the raw buffer byte. -/
def Vdec.read (d : Vdec) (o : Offset) : Byte := Cells.read 0 d.vram o.val

/-- The key of row `row` of tile `t` in the tile cache. -/
def rowKey (t row : Nat) : Nat := 8 * t + row

/-- A decoded pixel, `tiles[t][row][col]` (R22, R212). -/
def Vdec.pixel (d : Vdec) (t : Fin Config.nTiles) (row col : Fin 8) : Pixel :=
  (Cells.read blankRow d.tiles (rowKey t.val row.val))[col.val]

/-- The pixel formula (R205): column `col` takes bit `7 - col` of both bytes of the row, byte 2 the high bit. -/
def pixelOf (byte1 byte2 : Byte) (col : Nat) : Pixel :=
  let bit := 7 - col
  let lo := (byte1 >>> bit) &&& 1
  let hi := (byte2 >>> bit) &&& 1
  ((hi <<< 1) ||| lo).setWidth 2

/-- The 8 pixels of a row from its two bytes (R205). -/
def decodeRow (byte1 byte2 : Byte) : TileRow := Vector.ofFn fun col => pixelOf byte1 byte2 col.val

/-- Re-derives the one tile row that the byte at `offset` belongs to, from the row's byte pair (R204, R206, R207): the even
offset of the pair holds byte 1. -/
def Vdec.rederiveRow (offset : Nat) (d : Vdec) : Vdec :=
  let base := 2 * (offset / 2)
  let byte1 := Cells.read 0 d.vram base
  let byte2 := Cells.read 0 d.vram (base + 1)
  let t := offset / Config.tileBytes
  let row := offset % Config.tileBytes / 2
  { d with tiles := Cells.write blankRow d.tiles (rowKey t row) (decodeRow byte1 byte2) }

/-- The VDEC's `write`, `VramWrite` (R201): the buffer store first (R202), then, inside the tile-data sub-region only
(R203), the re-derivation of the affected row. -/
def Vdec.write (o : Offset) (v : Byte) (d : Vdec) : Vdec :=
  let stored : Vdec := { d with vram := Cells.write 0 d.vram o.val v }
  if o.val < Config.tileDataSize then stored.rederiveRow o.val else stored

/-- The window offset of an address, if it lies in the video window (R210). -/
def windowOffset (a : Word) : Option Offset :=
  if h : Config.vramBegin ≤ a.toNat ∧ a.toNat - Config.vramBegin < Config.vramSize then
    some ⟨a.toNat - Config.vramBegin, h.2⟩
  else none

/-- The forward of a CPU write to the VDEC: performed for addresses in the window, nothing elsewhere (R45, R210). -/
def Vdec.forward (a : Word) (v : Byte) (d : Vdec) : Vdec :=
  match windowOffset a with
  | some o => d.write o v
  | none => d

end Sys2Proof.Machine
end

