-- ==== Sys2Proof/Machine/Ops.lean ====
section
/-! DEFINITION. The named operations over memory, stack and `pc` that all meanings share (20_memory.md, 45_push_pop.md,
40_step_cycle.md), and the fatal stop (60_exceptions.md). -/

namespace Sys2Proof.Machine

/-- `MemRead(addr, 1)` (R44): changes no state, cannot fault (R41, R43). -/
def memRead (a : Word) (s : State) : Byte := Cells.read 0 s.mem a.toNat

/-- `MemWrite(addr, 1, v)` (R45): the store in the addressable memory, then the forward to the VDEC, as one action. -/
def memWrite (a : Word) (v : Byte) (s : State) : State :=
  { s with mem := Cells.write 0 s.mem a.toNat v, vdec := s.vdec.forward a v }

/-- `MemRead(addr, 2)` (R46): low byte first, the second address wraps. -/
def memReadWord (a : Word) (s : State) : Word :=
  let lo := memRead a s
  let hi := memRead (a + 1) s
  joinBytes hi lo

/-- The immediate `d8` of the instruction at `pc` (R78). -/
def readOperandByte (s : State) : Byte := memRead (s.pc + 1) s

/-- The operand `a16` of the instruction at `pc` (R78). -/
def readOperandWord (s : State) : Word := memReadWord (s.pc + 1) s

/-- `Push16` (R180): decrement, high byte, decrement, low byte; the decrements wrap and nothing is checked. -/
def push16 (v : Word) (s : State) : State :=
  let s1 := { s with sp := s.sp - 1 }
  let s2 := memWrite s1.sp (hiByte v) s1
  let s3 := { s2 with sp := s2.sp - 1 }
  memWrite s3.sp (loByte v) s3

/-- `Pop16` (R181): low byte, increment, high byte, increment; memory is not changed. -/
def pop16 (s : State) : Word × State :=
  let low := memRead s.sp s
  let s1 := { s with sp := s.sp + 1 }
  let high := memRead s1.sp s1
  let s2 := { s1 with sp := s1.sp + 1 }
  (joinBytes high low, s2)

/-- The write-back of `pc` (R105): guarded by `halted` as it is after execute (the spec's decision D11; log 5). -/
def writeBack (nextPc : Word) (s : State) : State :=
  if s.halted then s else { s with pc := nextPc }

/-- The state a fatal condition leaves (R231, R246): `status` becomes `Fatal(info)`, nothing else changes. There is no trap
entry: nothing is saved and control goes nowhere (R238), and so no return from one (R239). -/
def raiseFatal (info : Fault) (s : State) : State := { s with status := .fatal info }

/-- Stores consecutive bytes from an address on, addresses wrapping, each as if by `MemWrite` (R264). -/
def storeBytes : Word → List Byte → State → State
  | _, [], s => s
  | a, b :: bs, s => storeBytes (a + 1) bs (memWrite a b s)

end Sys2Proof.Machine
end

