-- ==== Sys2Proof/Machine/Cycle.lean ====
section
/-! DEFINITION. The phases of a Step before execute (40_step_cycle.md, rules R101 to R103, R106, R109, R111). -/

namespace Sys2Proof.Machine

/-- `b0`, the byte at `pc` (R101). -/
def fetchByte (s : State) : Byte := memRead s.pc s

/-- `prefixed`: the first byte is the 0xCB escape; tested once in a Step (R102). -/
def fetchPrefixed (s : State) : Bool := decide (fetchByte s = Config.prefixByte)

/-- `op`, the real opcode: the byte after the escape, else the first byte (R102). -/
def fetchOpcode (s : State) : Byte := if fetchPrefixed s then memRead (s.pc + 1) s else fetchByte s

/-- The report of a decode failure: the failing bytes, the prefix flag and the address of the first (R111, R231). -/
def decodeFault (s : State) : Fault :=
  .decodeFailure (if fetchPrefixed s then [Config.prefixByte, fetchOpcode s] else [fetchOpcode s]) (fetchPrefixed s) s.pc

/-- Fetch, prefix and decode, with the checks of R111 in their order: the instruction a Step executes, or the fatal
condition that ends it. A machine that has stopped takes no Step: it stays with the condition that stopped it (R109;
DESIGN CHOICE, safe, log 7). -/
def selectInstr (s : State) : Except Fault Instr :=
  match s.status with
  | .fatal info => .error info
  | .running =>
    match decodeOpcode (fetchOpcode s) (fetchPrefixed s) with
    | none => .error (decodeFault s)
    | some i => if s.halted && i != .halt then .error (.undefinedWhileHalted s.pc) else .ok i

end Sys2Proof.Machine
end

