-- ==== Sys2Proof/Machine/Flags.lean ====
section
/-! DEFINITION. Every flag computation of the spec: the 8-bit add (42_add.md rule R131), the flags' 8-bit encoding
(10_state.md rule R13) and the condition evaluation (40_step_cycle.md rule R108). -/

namespace Sys2Proof.Machine

/-- `add8` (R131): the exact sum is computed first, then narrowed; no carry comes in. -/
def add8 (a v : Byte) : Byte × Flags :=
  let sum9 := a.toNat + v.toNat
  let new := BitVec.ofNat 8 sum9
  (new,
    { z := decide (new = 0)
      n := false
      h := decide ((a &&& 0xF).toNat + (v &&& 0xF).toNat > 0xF)
      c := decide (sum9 > 0xFF) })

/-- A boolean as the byte 0 or 1. -/
def bitByte (b : Bool) : Byte := if b then 1 else 0

/-- `F8`, the flags packed into the upper nibble (R13). UNVERIFIED (unsafe, log 4): the spec marks the positions 7, 6,
5, 4 as general knowledge (D2); they stand only here and in `decodeFlags`. -/
def encodeFlags (f : Flags) : Byte :=
  (bitByte f.z <<< 7) ||| (bitByte f.n <<< 6) ||| (bitByte f.h <<< 5) ||| (bitByte f.c <<< 4)

/-- The flags of a byte; bits 3..0 are ignored (R13). -/
def decodeFlags (v : Byte) : Flags where
  z := v.getLsbD 7
  n := v.getLsbD 6
  h := v.getLsbD 5
  c := v.getLsbD 4

/-- `cond(c)` (R108): one evaluation shared by JP, CALL and RET; it reads `F.z` and `F.c` only. -/
def condHolds (c : Cond) (f : Flags) : Bool :=
  match c with
  | .always => true
  | .notZero => !f.z
  | .notCarry => !f.c
  | .zero => f.z
  | .carry => f.c

end Sys2Proof.Machine
end

