-- ==== Sys2Proof/Machine/Operands.lean ====
section
/-! DEFINITION. Every operand form: data registers (10_state.md rule R10), register pairs (R14, R15), and the source and
target operands of LD (43_load.md rule R140). -/

namespace Sys2Proof.Machine

/-- `x[r]`. -/
def readReg (r : Reg8) (s : State) : Byte :=
  match r with
  | .a => s.regs.a
  | .b => s.regs.b
  | .c => s.regs.c
  | .d => s.regs.d
  | .e => s.regs.e
  | .h => s.regs.h
  | .l => s.regs.l

/-- `x[r] <- v`. -/
def writeReg (r : Reg8) (v : Byte) (s : State) : State :=
  match r with
  | .a => { s with regs := { s.regs with a := v } }
  | .b => { s with regs := { s.regs with b := v } }
  | .c => { s with regs := { s.regs with c := v } }
  | .d => { s with regs := { s.regs with d := v } }
  | .e => { s with regs := { s.regs with e := v } }
  | .h => { s with regs := { s.regs with h := v } }
  | .l => { s with regs := { s.regs with l := v } }

/-- `rp[p]` (R14): the first-named register is the high byte; AF's low byte is the encoded flags (R15). -/
def readPair (p : Pair) (s : State) : Word :=
  match p with
  | .bc => joinBytes s.regs.b s.regs.c
  | .de => joinBytes s.regs.d s.regs.e
  | .hl => joinBytes s.regs.h s.regs.l
  | .af => joinBytes s.regs.a (encodeFlags s.flags)

/-- `rp[p] <- v` (R14): both halves at once; AF decodes the flags and loses bits 3..0. -/
def writePair (p : Pair) (v : Word) (s : State) : State :=
  match p with
  | .bc => { s with regs := { s.regs with b := hiByte v, c := loByte v } }
  | .de => { s with regs := { s.regs with d := hiByte v, e := loByte v } }
  | .hl => { s with regs := { s.regs with h := hiByte v, l := loByte v } }
  | .af => { s with regs := { s.regs with a := hiByte v }, flags := decodeFlags (loByte v) }

/-- The address of an `(HL)` operand (R140): HL used as is. -/
def addrHL (s : State) : Word := readPair .hl s

/-- The value of a load's source operand (R140). -/
def readSrc (src : Src8) (s : State) : Byte :=
  match src with
  | .reg r => readReg r s
  | .atHL => memRead (addrHL s) s
  | .d8 => readOperandByte s

/-- The write of a load's target operand; through HL it writes to memory (R140). -/
def writeDst (dst : Dst8) (v : Byte) (s : State) : State :=
  match dst with
  | .reg r => writeReg r v s
  | .atHL => memWrite (addrHL s) v s

end Sys2Proof.Machine
end

