-- ==== Sys2Proof/Machine/Add.lean ====
section
/-! DEFINITION. The meanings of ADD A,r (42_add.md).
Each is its own definition over the operation its kind shares. -/

namespace Sys2Proof.Machine

/-- ADD A,r (R130): both operands are read before any write; all four flags are written. -/
def addToA (r : Reg8) (s : State) : State :=
  let sum := add8 (readReg .a s) (readReg r s)
  writeBack (s.pc + 1) (writeReg .a sum.1 { s with flags := sum.2 })

/-- ADD A,B (0x80, R130). -/
def execAddAB (s : State) : Host.Outcome State Fault Refusal := .next (addToA .b s)

/-- ADD A,C (0x81, R130). -/
def execAddAC (s : State) : Host.Outcome State Fault Refusal := .next (addToA .c s)

/-- ADD A,D (0x82, R130). -/
def execAddAD (s : State) : Host.Outcome State Fault Refusal := .next (addToA .d s)

/-- ADD A,E (0x83, R130). -/
def execAddAE (s : State) : Host.Outcome State Fault Refusal := .next (addToA .e s)

/-- ADD A,H (0x84, R130). -/
def execAddAH (s : State) : Host.Outcome State Fault Refusal := .next (addToA .h s)

/-- ADD A,L (0x85, R130). -/
def execAddAL (s : State) : Host.Outcome State Fault Refusal := .next (addToA .l s)

/-- ADD A,A (0x87, R130). -/
def execAddAA (s : State) : Host.Outcome State Fault Refusal := .next (addToA .a s)

end Sys2Proof.Machine
end

