-- ==== Sys2Proof/Machine/Control.lean ====
section
/-! DEFINITION. The meanings of NOP and HALT (41_nop_halt.md).
Each is its own definition over the operation its kind shares. -/

namespace Sys2Proof.Machine

/-- NOP (R120): only `pc` changes. -/
def noOperation (s : State) : State := writeBack (s.pc + 1) s

/-- HALT (R121): sets `halted`; the returned `pc0 + 1` meets the guard, which sees the new `halted` (R105, log 5). -/
def haltCpu (s : State) : State := writeBack (s.pc + 1) { s with halted := true }

/-- NOP (0x00, R120). -/
def execNop (s : State) : Host.Outcome State Fault Refusal := .next (noOperation s)

/-- HALT (0x76, R121). -/
def execHalt (s : State) : Host.Outcome State Fault Refusal := .next (haltCpu s)

end Sys2Proof.Machine
end

