-- ==== Sys2Proof/Machine/Load.lean ====
section
/-! DEFINITION. The meanings of LD, its five operand shapes (43_load.md, rules R140 to R146).
Each is its own definition over the operation its kind shares. -/

namespace Sys2Proof.Machine

/-- LD (R140 to R145): the source is read in full, then the target written; `pc` advances by 2 for the immediate form,
else by 1. No flag, `sp` or `halted` is touched (R146). -/
def loadByte (dst : Dst8) (src : Src8) (s : State) : State :=
  let v := readSrc src s
  let next := match src with
    | .reg _ => s.pc + 1
    | .atHL => s.pc + 1
    | .d8 => s.pc + 2
  writeBack next (writeDst dst v s)

/-- LD B,B (0x40, R141). -/
def execLdBB (s : State) : Host.Outcome State Fault Refusal := .next (loadByte (.reg .b) (.reg .b) s)

/-- LD B,C (0x41, R141). -/
def execLdBC (s : State) : Host.Outcome State Fault Refusal := .next (loadByte (.reg .b) (.reg .c) s)

/-- LD B,D (0x42, R141). -/
def execLdBD (s : State) : Host.Outcome State Fault Refusal := .next (loadByte (.reg .b) (.reg .d) s)

/-- LD B,E (0x43, R141). -/
def execLdBE (s : State) : Host.Outcome State Fault Refusal := .next (loadByte (.reg .b) (.reg .e) s)

/-- LD B,H (0x44, R141). -/
def execLdBH (s : State) : Host.Outcome State Fault Refusal := .next (loadByte (.reg .b) (.reg .h) s)

/-- LD B,L (0x45, R141). -/
def execLdBL (s : State) : Host.Outcome State Fault Refusal := .next (loadByte (.reg .b) (.reg .l) s)

/-- LD B,A (0x47, R141). -/
def execLdBA (s : State) : Host.Outcome State Fault Refusal := .next (loadByte (.reg .b) (.reg .a) s)

/-- LD C,B (0x48, R141). -/
def execLdCB (s : State) : Host.Outcome State Fault Refusal := .next (loadByte (.reg .c) (.reg .b) s)

/-- LD C,C (0x49, R141). -/
def execLdCC (s : State) : Host.Outcome State Fault Refusal := .next (loadByte (.reg .c) (.reg .c) s)

/-- LD C,D (0x4A, R141). -/
def execLdCD (s : State) : Host.Outcome State Fault Refusal := .next (loadByte (.reg .c) (.reg .d) s)

/-- LD C,E (0x4B, R141). -/
def execLdCE (s : State) : Host.Outcome State Fault Refusal := .next (loadByte (.reg .c) (.reg .e) s)

/-- LD C,H (0x4C, R141). -/
def execLdCH (s : State) : Host.Outcome State Fault Refusal := .next (loadByte (.reg .c) (.reg .h) s)

/-- LD C,L (0x4D, R141). -/
def execLdCL (s : State) : Host.Outcome State Fault Refusal := .next (loadByte (.reg .c) (.reg .l) s)

/-- LD C,A (0x4F, R141). -/
def execLdCA (s : State) : Host.Outcome State Fault Refusal := .next (loadByte (.reg .c) (.reg .a) s)

/-- LD D,B (0x50, R141). -/
def execLdDB (s : State) : Host.Outcome State Fault Refusal := .next (loadByte (.reg .d) (.reg .b) s)

/-- LD D,C (0x51, R141). -/
def execLdDC (s : State) : Host.Outcome State Fault Refusal := .next (loadByte (.reg .d) (.reg .c) s)

/-- LD D,D (0x52, R141). -/
def execLdDD (s : State) : Host.Outcome State Fault Refusal := .next (loadByte (.reg .d) (.reg .d) s)

/-- LD D,E (0x53, R141). -/
def execLdDE (s : State) : Host.Outcome State Fault Refusal := .next (loadByte (.reg .d) (.reg .e) s)

/-- LD D,H (0x54, R141). -/
def execLdDH (s : State) : Host.Outcome State Fault Refusal := .next (loadByte (.reg .d) (.reg .h) s)

/-- LD D,L (0x55, R141). -/
def execLdDL (s : State) : Host.Outcome State Fault Refusal := .next (loadByte (.reg .d) (.reg .l) s)

/-- LD D,A (0x57, R141). -/
def execLdDA (s : State) : Host.Outcome State Fault Refusal := .next (loadByte (.reg .d) (.reg .a) s)

/-- LD E,B (0x58, R141). -/
def execLdEB (s : State) : Host.Outcome State Fault Refusal := .next (loadByte (.reg .e) (.reg .b) s)

/-- LD E,C (0x59, R141). -/
def execLdEC (s : State) : Host.Outcome State Fault Refusal := .next (loadByte (.reg .e) (.reg .c) s)

/-- LD E,D (0x5A, R141). -/
def execLdED (s : State) : Host.Outcome State Fault Refusal := .next (loadByte (.reg .e) (.reg .d) s)

/-- LD E,E (0x5B, R141). -/
def execLdEE (s : State) : Host.Outcome State Fault Refusal := .next (loadByte (.reg .e) (.reg .e) s)

/-- LD E,H (0x5C, R141). -/
def execLdEH (s : State) : Host.Outcome State Fault Refusal := .next (loadByte (.reg .e) (.reg .h) s)

/-- LD E,L (0x5D, R141). -/
def execLdEL (s : State) : Host.Outcome State Fault Refusal := .next (loadByte (.reg .e) (.reg .l) s)

/-- LD E,A (0x5F, R141). -/
def execLdEA (s : State) : Host.Outcome State Fault Refusal := .next (loadByte (.reg .e) (.reg .a) s)

/-- LD H,B (0x60, R141). -/
def execLdHB (s : State) : Host.Outcome State Fault Refusal := .next (loadByte (.reg .h) (.reg .b) s)

/-- LD H,C (0x61, R141). -/
def execLdHC (s : State) : Host.Outcome State Fault Refusal := .next (loadByte (.reg .h) (.reg .c) s)

/-- LD H,D (0x62, R141). -/
def execLdHD (s : State) : Host.Outcome State Fault Refusal := .next (loadByte (.reg .h) (.reg .d) s)

/-- LD H,E (0x63, R141). -/
def execLdHE (s : State) : Host.Outcome State Fault Refusal := .next (loadByte (.reg .h) (.reg .e) s)

/-- LD H,H (0x64, R141). -/
def execLdHH (s : State) : Host.Outcome State Fault Refusal := .next (loadByte (.reg .h) (.reg .h) s)

/-- LD H,L (0x65, R141). -/
def execLdHL (s : State) : Host.Outcome State Fault Refusal := .next (loadByte (.reg .h) (.reg .l) s)

/-- LD H,A (0x67, R141). -/
def execLdHA (s : State) : Host.Outcome State Fault Refusal := .next (loadByte (.reg .h) (.reg .a) s)

/-- LD L,B (0x68, R141). -/
def execLdLB (s : State) : Host.Outcome State Fault Refusal := .next (loadByte (.reg .l) (.reg .b) s)

/-- LD L,C (0x69, R141). -/
def execLdLC (s : State) : Host.Outcome State Fault Refusal := .next (loadByte (.reg .l) (.reg .c) s)

/-- LD L,D (0x6A, R141). -/
def execLdLD (s : State) : Host.Outcome State Fault Refusal := .next (loadByte (.reg .l) (.reg .d) s)

/-- LD L,E (0x6B, R141). -/
def execLdLE (s : State) : Host.Outcome State Fault Refusal := .next (loadByte (.reg .l) (.reg .e) s)

/-- LD L,H (0x6C, R141). -/
def execLdLH (s : State) : Host.Outcome State Fault Refusal := .next (loadByte (.reg .l) (.reg .h) s)

/-- LD L,L (0x6D, R141). -/
def execLdLL (s : State) : Host.Outcome State Fault Refusal := .next (loadByte (.reg .l) (.reg .l) s)

/-- LD L,A (0x6F, R141). -/
def execLdLA (s : State) : Host.Outcome State Fault Refusal := .next (loadByte (.reg .l) (.reg .a) s)

/-- LD A,B (0x78, R141). -/
def execLdAB (s : State) : Host.Outcome State Fault Refusal := .next (loadByte (.reg .a) (.reg .b) s)

/-- LD A,C (0x79, R141). -/
def execLdAC (s : State) : Host.Outcome State Fault Refusal := .next (loadByte (.reg .a) (.reg .c) s)

/-- LD A,D (0x7A, R141). -/
def execLdAD (s : State) : Host.Outcome State Fault Refusal := .next (loadByte (.reg .a) (.reg .d) s)

/-- LD A,E (0x7B, R141). -/
def execLdAE (s : State) : Host.Outcome State Fault Refusal := .next (loadByte (.reg .a) (.reg .e) s)

/-- LD A,H (0x7C, R141). -/
def execLdAH (s : State) : Host.Outcome State Fault Refusal := .next (loadByte (.reg .a) (.reg .h) s)

/-- LD A,L (0x7D, R141). -/
def execLdAL (s : State) : Host.Outcome State Fault Refusal := .next (loadByte (.reg .a) (.reg .l) s)

/-- LD A,A (0x7F, R141). -/
def execLdAA (s : State) : Host.Outcome State Fault Refusal := .next (loadByte (.reg .a) (.reg .a) s)

/-- LD B,(HL) (0x46, R142). -/
def execLdBAtHL (s : State) : Host.Outcome State Fault Refusal := .next (loadByte (.reg .b) .atHL s)

/-- LD C,(HL) (0x4E, R142). -/
def execLdCAtHL (s : State) : Host.Outcome State Fault Refusal := .next (loadByte (.reg .c) .atHL s)

/-- LD D,(HL) (0x56, R142). -/
def execLdDAtHL (s : State) : Host.Outcome State Fault Refusal := .next (loadByte (.reg .d) .atHL s)

/-- LD E,(HL) (0x5E, R142). -/
def execLdEAtHL (s : State) : Host.Outcome State Fault Refusal := .next (loadByte (.reg .e) .atHL s)

/-- LD H,(HL) (0x66, R142). -/
def execLdHAtHL (s : State) : Host.Outcome State Fault Refusal := .next (loadByte (.reg .h) .atHL s)

/-- LD L,(HL) (0x6E, R142). -/
def execLdLAtHL (s : State) : Host.Outcome State Fault Refusal := .next (loadByte (.reg .l) .atHL s)

/-- LD A,(HL) (0x7E, R142). -/
def execLdAAtHL (s : State) : Host.Outcome State Fault Refusal := .next (loadByte (.reg .a) .atHL s)

/-- LD (HL),B (0x70, R143). -/
def execLdAtHLB (s : State) : Host.Outcome State Fault Refusal := .next (loadByte .atHL (.reg .b) s)

/-- LD (HL),C (0x71, R143). -/
def execLdAtHLC (s : State) : Host.Outcome State Fault Refusal := .next (loadByte .atHL (.reg .c) s)

/-- LD (HL),D (0x72, R143). -/
def execLdAtHLD (s : State) : Host.Outcome State Fault Refusal := .next (loadByte .atHL (.reg .d) s)

/-- LD (HL),E (0x73, R143). -/
def execLdAtHLE (s : State) : Host.Outcome State Fault Refusal := .next (loadByte .atHL (.reg .e) s)

/-- LD (HL),H (0x74, R143). -/
def execLdAtHLH (s : State) : Host.Outcome State Fault Refusal := .next (loadByte .atHL (.reg .h) s)

/-- LD (HL),L (0x75, R143). -/
def execLdAtHLL (s : State) : Host.Outcome State Fault Refusal := .next (loadByte .atHL (.reg .l) s)

/-- LD (HL),A (0x77, R143). -/
def execLdAtHLA (s : State) : Host.Outcome State Fault Refusal := .next (loadByte .atHL (.reg .a) s)

/-- LD B,d8 (0x06, R144). -/
def execLdBImm (s : State) : Host.Outcome State Fault Refusal := .next (loadByte (.reg .b) .d8 s)

/-- LD C,d8 (0x0E, R144). -/
def execLdCImm (s : State) : Host.Outcome State Fault Refusal := .next (loadByte (.reg .c) .d8 s)

/-- LD D,d8 (0x16, R144). -/
def execLdDImm (s : State) : Host.Outcome State Fault Refusal := .next (loadByte (.reg .d) .d8 s)

/-- LD E,d8 (0x1E, R144). -/
def execLdEImm (s : State) : Host.Outcome State Fault Refusal := .next (loadByte (.reg .e) .d8 s)

/-- LD H,d8 (0x26, R144). -/
def execLdHImm (s : State) : Host.Outcome State Fault Refusal := .next (loadByte (.reg .h) .d8 s)

/-- LD L,d8 (0x2E, R144). -/
def execLdLImm (s : State) : Host.Outcome State Fault Refusal := .next (loadByte (.reg .l) .d8 s)

/-- LD A,d8 (0x3E, R144). -/
def execLdAImm (s : State) : Host.Outcome State Fault Refusal := .next (loadByte (.reg .a) .d8 s)

/-- LD (HL),d8 (0x36, R145). -/
def execLdAtHLImm (s : State) : Host.Outcome State Fault Refusal := .next (loadByte .atHL .d8 s)

end Sys2Proof.Machine
end

