-- ==== Sys2Proof/Machine/Stack.lean ====
section
/-! DEFINITION. The meanings of PUSH and POP (45_push_pop.md).
Each is its own definition over the operation its kind shares. -/

namespace Sys2Proof.Machine

/-- PUSH rr (R183). -/
def pushPair (p : Pair) (s : State) : State := writeBack (s.pc + 1) (push16 (readPair p s) s)

/-- POP rr (R184); POP AF decodes the flags from the low byte. -/
def popPair (p : Pair) (s : State) : State :=
  let popped := pop16 s
  writeBack (s.pc + 1) (writePair p popped.1 popped.2)

/-- PUSH BC (0xC5, R183). -/
def execPushBC (s : State) : Host.Outcome State Fault Refusal := .next (pushPair .bc s)

/-- PUSH DE (0xD5, R183). -/
def execPushDE (s : State) : Host.Outcome State Fault Refusal := .next (pushPair .de s)

/-- PUSH HL (0xE5, R183). -/
def execPushHL (s : State) : Host.Outcome State Fault Refusal := .next (pushPair .hl s)

/-- PUSH AF (0xF5, R183). -/
def execPushAF (s : State) : Host.Outcome State Fault Refusal := .next (pushPair .af s)

/-- POP BC (0xC1, R184). -/
def execPopBC (s : State) : Host.Outcome State Fault Refusal := .next (popPair .bc s)

/-- POP DE (0xD1, R184). -/
def execPopDE (s : State) : Host.Outcome State Fault Refusal := .next (popPair .de s)

/-- POP HL (0xE1, R184). -/
def execPopHL (s : State) : Host.Outcome State Fault Refusal := .next (popPair .hl s)

/-- POP AF (0xF1, R184). -/
def execPopAF (s : State) : Host.Outcome State Fault Refusal := .next (popPair .af s)

end Sys2Proof.Machine
end

