-- ==== Sys2Proof/Machine/Transfer.lean ====
section
/-! DEFINITION. The meanings of JP, CALL and RET (44_jump_call_return.md).
Each is its own definition over the operation its kind shares. -/

namespace Sys2Proof.Machine

/-- JP (R160, R161): the operand word is read only when the condition holds. -/
def jump (c : Cond) (s : State) : State :=
  if condHolds c s.flags then writeBack (readOperandWord s) s
  else writeBack (s.pc + 3) s

/-- CALL (R162, R163): when taken, the return address is pushed first and the operand word read afterwards, from the
memory the push has left (the spec's decision D14; log 6). -/
def callSub (c : Cond) (s : State) : State :=
  let returnAddress := s.pc + 3
  if condHolds c s.flags then
    let pushed := push16 returnAddress s
    writeBack (readOperandWord pushed) pushed
  else writeBack returnAddress s

/-- RET (R164, R165): when taken, the popped word is the next `pc`. -/
def returnSub (c : Cond) (s : State) : State :=
  if condHolds c s.flags then
    let popped := pop16 s
    writeBack popped.1 popped.2
  else writeBack (s.pc + 1) s

/-- JP NZ,a16 (0xC2, R161). -/
def execJpNZ (s : State) : Host.Outcome State Fault Refusal := .next (jump .notZero s)

/-- JP a16 (0xC3, R160). -/
def execJp (s : State) : Host.Outcome State Fault Refusal := .next (jump .always s)

/-- JP Z,a16 (0xCA, R161). -/
def execJpZ (s : State) : Host.Outcome State Fault Refusal := .next (jump .zero s)

/-- JP NC,a16 (0xD2, R161). -/
def execJpNC (s : State) : Host.Outcome State Fault Refusal := .next (jump .notCarry s)

/-- JP C,a16 (0xDA, R161). -/
def execJpC (s : State) : Host.Outcome State Fault Refusal := .next (jump .carry s)

/-- CALL NZ,a16 (0xC4, R163). -/
def execCallNZ (s : State) : Host.Outcome State Fault Refusal := .next (callSub .notZero s)

/-- CALL Z,a16 (0xCC, R163). -/
def execCallZ (s : State) : Host.Outcome State Fault Refusal := .next (callSub .zero s)

/-- CALL a16 (0xCD, R162). -/
def execCall (s : State) : Host.Outcome State Fault Refusal := .next (callSub .always s)

/-- CALL NC,a16 (0xD4, R163). -/
def execCallNC (s : State) : Host.Outcome State Fault Refusal := .next (callSub .notCarry s)

/-- CALL C,a16 (0xDC, R163). -/
def execCallC (s : State) : Host.Outcome State Fault Refusal := .next (callSub .carry s)

/-- RET NZ (0xC0, R165). -/
def execRetNZ (s : State) : Host.Outcome State Fault Refusal := .next (returnSub .notZero s)

/-- RET Z (0xC8, R165). -/
def execRetZ (s : State) : Host.Outcome State Fault Refusal := .next (returnSub .zero s)

/-- RET (0xC9, R164). -/
def execRet (s : State) : Host.Outcome State Fault Refusal := .next (returnSub .always s)

/-- RET NC (0xD0, R165). -/
def execRetNC (s : State) : Host.Outcome State Fault Refusal := .next (returnSub .notCarry s)

/-- RET C (0xD8, R165). -/
def execRetC (s : State) : Host.Outcome State Fault Refusal := .next (returnSub .carry s)

end Sys2Proof.Machine
end

