-- ==== Sys2Proof/Machine/Dispatch.lean ====
section
/-! DEFINITION. exec: one arm per instruction, each a direct call of its meaning (R104, with the guarded write-back of
R105; log 8). -/

namespace Sys2Proof.Machine

def exec (i : Instr) (s : State) : Host.Outcome State Fault Refusal :=
  match i with
  -- NOP and HALT (41_nop_halt.md, R120, R121)
  | .nop => Sys2Proof.Machine.execNop s
  | .halt => Sys2Proof.Machine.execHalt s
  -- ADD A,r (42_add.md, R130)
  | .addAB => Sys2Proof.Machine.execAddAB s
  | .addAC => Sys2Proof.Machine.execAddAC s
  | .addAD => Sys2Proof.Machine.execAddAD s
  | .addAE => Sys2Proof.Machine.execAddAE s
  | .addAH => Sys2Proof.Machine.execAddAH s
  | .addAL => Sys2Proof.Machine.execAddAL s
  | .addAA => Sys2Proof.Machine.execAddAA s
  -- LD r,r' (43_load.md, R141)
  | .ldBB => Sys2Proof.Machine.execLdBB s
  | .ldBC => Sys2Proof.Machine.execLdBC s
  | .ldBD => Sys2Proof.Machine.execLdBD s
  | .ldBE => Sys2Proof.Machine.execLdBE s
  | .ldBH => Sys2Proof.Machine.execLdBH s
  | .ldBL => Sys2Proof.Machine.execLdBL s
  | .ldBA => Sys2Proof.Machine.execLdBA s
  | .ldCB => Sys2Proof.Machine.execLdCB s
  | .ldCC => Sys2Proof.Machine.execLdCC s
  | .ldCD => Sys2Proof.Machine.execLdCD s
  | .ldCE => Sys2Proof.Machine.execLdCE s
  | .ldCH => Sys2Proof.Machine.execLdCH s
  | .ldCL => Sys2Proof.Machine.execLdCL s
  | .ldCA => Sys2Proof.Machine.execLdCA s
  | .ldDB => Sys2Proof.Machine.execLdDB s
  | .ldDC => Sys2Proof.Machine.execLdDC s
  | .ldDD => Sys2Proof.Machine.execLdDD s
  | .ldDE => Sys2Proof.Machine.execLdDE s
  | .ldDH => Sys2Proof.Machine.execLdDH s
  | .ldDL => Sys2Proof.Machine.execLdDL s
  | .ldDA => Sys2Proof.Machine.execLdDA s
  | .ldEB => Sys2Proof.Machine.execLdEB s
  | .ldEC => Sys2Proof.Machine.execLdEC s
  | .ldED => Sys2Proof.Machine.execLdED s
  | .ldEE => Sys2Proof.Machine.execLdEE s
  | .ldEH => Sys2Proof.Machine.execLdEH s
  | .ldEL => Sys2Proof.Machine.execLdEL s
  | .ldEA => Sys2Proof.Machine.execLdEA s
  | .ldHB => Sys2Proof.Machine.execLdHB s
  | .ldHC => Sys2Proof.Machine.execLdHC s
  | .ldHD => Sys2Proof.Machine.execLdHD s
  | .ldHE => Sys2Proof.Machine.execLdHE s
  | .ldHH => Sys2Proof.Machine.execLdHH s
  | .ldHL => Sys2Proof.Machine.execLdHL s
  | .ldHA => Sys2Proof.Machine.execLdHA s
  | .ldLB => Sys2Proof.Machine.execLdLB s
  | .ldLC => Sys2Proof.Machine.execLdLC s
  | .ldLD => Sys2Proof.Machine.execLdLD s
  | .ldLE => Sys2Proof.Machine.execLdLE s
  | .ldLH => Sys2Proof.Machine.execLdLH s
  | .ldLL => Sys2Proof.Machine.execLdLL s
  | .ldLA => Sys2Proof.Machine.execLdLA s
  | .ldAB => Sys2Proof.Machine.execLdAB s
  | .ldAC => Sys2Proof.Machine.execLdAC s
  | .ldAD => Sys2Proof.Machine.execLdAD s
  | .ldAE => Sys2Proof.Machine.execLdAE s
  | .ldAH => Sys2Proof.Machine.execLdAH s
  | .ldAL => Sys2Proof.Machine.execLdAL s
  | .ldAA => Sys2Proof.Machine.execLdAA s
  -- LD r,(HL) (43_load.md, R142)
  | .ldBAtHL => Sys2Proof.Machine.execLdBAtHL s
  | .ldCAtHL => Sys2Proof.Machine.execLdCAtHL s
  | .ldDAtHL => Sys2Proof.Machine.execLdDAtHL s
  | .ldEAtHL => Sys2Proof.Machine.execLdEAtHL s
  | .ldHAtHL => Sys2Proof.Machine.execLdHAtHL s
  | .ldLAtHL => Sys2Proof.Machine.execLdLAtHL s
  | .ldAAtHL => Sys2Proof.Machine.execLdAAtHL s
  -- LD (HL),r (43_load.md, R143)
  | .ldAtHLB => Sys2Proof.Machine.execLdAtHLB s
  | .ldAtHLC => Sys2Proof.Machine.execLdAtHLC s
  | .ldAtHLD => Sys2Proof.Machine.execLdAtHLD s
  | .ldAtHLE => Sys2Proof.Machine.execLdAtHLE s
  | .ldAtHLH => Sys2Proof.Machine.execLdAtHLH s
  | .ldAtHLL => Sys2Proof.Machine.execLdAtHLL s
  | .ldAtHLA => Sys2Proof.Machine.execLdAtHLA s
  -- LD r,d8 (43_load.md, R144)
  | .ldBImm => Sys2Proof.Machine.execLdBImm s
  | .ldCImm => Sys2Proof.Machine.execLdCImm s
  | .ldDImm => Sys2Proof.Machine.execLdDImm s
  | .ldEImm => Sys2Proof.Machine.execLdEImm s
  | .ldHImm => Sys2Proof.Machine.execLdHImm s
  | .ldLImm => Sys2Proof.Machine.execLdLImm s
  | .ldAImm => Sys2Proof.Machine.execLdAImm s
  -- LD (HL),d8 (43_load.md, R145)
  | .ldAtHLImm => Sys2Proof.Machine.execLdAtHLImm s
  -- JP a16 and JP cc,a16 (44_jump_call_return.md, R160, R161)
  | .jpNZ => Sys2Proof.Machine.execJpNZ s
  | .jp => Sys2Proof.Machine.execJp s
  | .jpZ => Sys2Proof.Machine.execJpZ s
  | .jpNC => Sys2Proof.Machine.execJpNC s
  | .jpC => Sys2Proof.Machine.execJpC s
  -- CALL a16 and CALL cc,a16 (44_jump_call_return.md, R162, R163)
  | .callNZ => Sys2Proof.Machine.execCallNZ s
  | .callZ => Sys2Proof.Machine.execCallZ s
  | .call => Sys2Proof.Machine.execCall s
  | .callNC => Sys2Proof.Machine.execCallNC s
  | .callC => Sys2Proof.Machine.execCallC s
  -- RET and RET cc (44_jump_call_return.md, R164, R165)
  | .retNZ => Sys2Proof.Machine.execRetNZ s
  | .retZ => Sys2Proof.Machine.execRetZ s
  | .ret => Sys2Proof.Machine.execRet s
  | .retNC => Sys2Proof.Machine.execRetNC s
  | .retC => Sys2Proof.Machine.execRetC s
  -- PUSH rr (45_push_pop.md, R183)
  | .pushBC => Sys2Proof.Machine.execPushBC s
  | .pushDE => Sys2Proof.Machine.execPushDE s
  | .pushHL => Sys2Proof.Machine.execPushHL s
  | .pushAF => Sys2Proof.Machine.execPushAF s
  -- POP rr (45_push_pop.md, R184)
  | .popBC => Sys2Proof.Machine.execPopBC s
  | .popDE => Sys2Proof.Machine.execPopDE s
  | .popHL => Sys2Proof.Machine.execPopHL s
  | .popAF => Sys2Proof.Machine.execPopAF s

end Sys2Proof.Machine
end

