-- ==== Sys2Proof/Machine/Step.lean ====
section
/-! DEFINITION. The Step operation (40_step_cycle.md rule R111). -/

namespace Sys2Proof.Machine

/-- Step: one fetch, decode, execute and write-back of exactly one instruction, or a fatal stop (R100, R107, R111). -/
def step (s : State) : Host.Outcome State Fault Refusal :=
  match selectInstr s with
  | .ok i => exec i s
  | .error info => .fault info

/-- `s` with an instruction's bytes loaded at `pc`, where the next Step fetches, zeros up to 3 bytes; loaded as if by
`MemWrite` (R264; log 10). -/
def State.withFetchWord (s : State) (nbits w : Nat) : State := storeBytes s.pc (tableBytes nbits w) s

end Sys2Proof.Machine
end

