-- ==== Sys2Proof/Machine/Run.lean ====
section
/-! DEFINITION. What the outside world does to the machine and sees of it: the loader (70_reset_and_hazards.md rule R264),
the state a Step leaves, fatal stops included (60_exceptions.md rule R231), the VDEC's host-side `read` and the tile
cache (48_video_tile_decoder.md rules R208, R212). -/

namespace Sys2Proof.Machine

/-- All 65,536 addresses, rising. -/
def allAddresses : List Word := (List.range 0x10000).map (BitVec.ofNat 16)

/-- The loader (R264): for every address, `mem[a] <- image(a)`, each byte as if by `MemWrite` so that the VDEC sees the
window's bytes (the spec's decision D10; log 10). -/
def State.load (image : Word → Byte) (s : State) : State :=
  allAddresses.foldl (fun t a => memWrite a (image a) t) s

/-- The launch state: reset with SP_RESET = `sp`, then the image loaded (R260, R264). -/
def State.launch (sp : Word) (image : Word → Byte) : State := (State.resetWith sp).load image

/-- The whole state after the host invokes Step once: the next state, or after a fatal condition the same state with
`status` stopped (R19, R109, R231). -/
def State.afterStep (s : State) : State :=
  match step s with
  | .next t => t
  | .fault info => raiseFatal info s
  | .refused _ => s

/-- `VramRead` on the whole machine, for the host (R208). -/
def State.vramRead (s : State) (o : Offset) : Byte := s.vdec.read o

/-- `tiles[t][row][col]`, the output the frame presentation reads (R212). -/
def State.pixel (s : State) (t : Fin Config.nTiles) (row col : Fin 8) : Pixel := s.vdec.pixel t row col

end Sys2Proof.Machine
end

