-- ==== Sys2Proof/Safety.lean ====
section
/-! DEFINITION. The terms claims are stated in: the invariants of the machine (10_state.md rule R23, 40_step_cycle.md rule
R106), its reachable states and the end of a run (70_reset_and_hazards.md rule R266), when an instruction transfers
control, and which registers a pair is made of. -/

namespace Sys2Proof.Machine

/-- The address of a window offset. -/
def windowAddr (o : Offset) : Word := BitVec.ofNat 16 (Config.vramBegin + o.val)

/-- The offset of byte 1 of row `row` of tile `t`: `16*t + 2*row` (R206). -/
def rowByte1 (t : Fin Config.nTiles) (row : Fin 8) : Offset :=
  ⟨16 * t.val + 2 * row.val, by
    have h := t.isLt
    simp only [Config.nTiles, Config.vramSize] at *
    omega⟩

/-- The offset of byte 2 of the row: `16*t + 2*row + 1` (R206). -/
def rowByte2 (t : Fin Config.nTiles) (row : Fin 8) : Offset :=
  ⟨16 * t.val + 2 * row.val + 1, by
    have h := t.isLt
    simp only [Config.nTiles, Config.vramSize] at *
    omega⟩

/-- The pixel that two bytes give column `col`: the bit of byte 2 above the bit of byte 1, most significant bit leftmost
(R23, R205). -/
def pixelFrom (byte1 byte2 : Byte) (col : Fin 8) : Pixel :=
  BitVec.ofBool (byte2.getLsbD (7 - col.val)) ++ BitVec.ofBool (byte1.getLsbD (7 - col.val))

/-- INV-MIRROR (R23): the VDEC's buffer holds what memory holds in the window. -/
def MirrorInv (s : State) : Prop := ∀ o : Offset, s.vramRead o = memRead (windowAddr o) s

/-- INV-TILE of a VDEC (R23): every pixel is the function of its row's two bytes. -/
def VdecTileInv (d : Vdec) : Prop :=
  ∀ (t : Fin Config.nTiles) (row col : Fin 8),
    d.pixel t row col = pixelFrom (d.read (rowByte1 t row)) (d.read (rowByte2 t row)) col

/-- INV-TILE (R23). -/
def TileInv (s : State) : Prop := VdecTileInv s.vdec

/-- All three stores are in their canonical form (the model's own invariant, log 11). -/
def CanonicalInv (s : State) : Prop := s.mem.wf ∧ s.vdec.wf

/-- While halted, `pc` stands on a HALT (R106). -/
def HaltInv (s : State) : Prop := s.halted = true → memRead s.pc s = 0x76

/-- The invariant of the whole machine: canonical stores, R23's two equations, R106's, and a running status. -/
structure Inv (s : State) : Prop where
  canonical : CanonicalInv s
  mirror : MirrorInv s
  tile : TileInv s
  halt : HaltInv s
  running : s.status = .running

/-- The states of a run: reset with any SP_RESET, any image loaded, then Steps (R264, R266). -/
inductive Reachable : State → Prop where
  | launch (sp : Word) (image : Word → Byte) : Reachable (State.launch sp image)
  | step {s t : State} : Reachable s → step s = .next t → Reachable t

/-- How a run has ended (R266): halted, the successful end, or fatal. -/
inductive RunEnd where
  | halted
  | fatal (info : Fault)
deriving DecidableEq, Repr

/-- The end of the run a state is, if it is one (R266). -/
def State.runEnd (s : State) : Option RunEnd :=
  match s.status with
  | .fatal info => some (.fatal info)
  | .running => if s.halted then some .halted else none

/-- Whether executing `i` in `s` transfers control: a JP, CALL or RET whose condition holds (R108, R110). -/
def transferTaken (i : Instr) (s : State) : Bool :=
  match i.kind with
  | .jp c => condHolds c s.flags
  | .call c => condHolds c s.flags
  | .ret c => condHolds c s.flags
  | .nop => false
  | .halt => false
  | .add _ => false
  | .ld _ _ => false
  | .push _ => false
  | .pop _ => false

/-- The data registers a pair is made of; AF's low byte is no data register (R14). -/
def pairHas (p : Pair) (r : Reg8) : Bool :=
  match p with
  | .bc => r == .b || r == .c
  | .de => r == .d || r == .e
  | .hl => r == .h || r == .l
  | .af => r == .a

end Sys2Proof.Machine
end

