-- ==== Sys2Proof/Certificates/Slice0/Obligations.lean ====
section
/-! DEFINITION. The statements for the provers. Each docstring names the rule of spec/ it formalises, and the spec's own
decision or log entry it rests on, if any. -/

open Sys2Proof Sys2Proof.Machine

/-! ### Encoding -/

/-- Words written out from the spec's encodings, one family each, decode to the instructions they stand for. The byte
values are the spec's (R80), which marks them as general knowledge (D3, log 3). -/
def Obligations.DecodesSampleWords : Prop :=
  decode [0b00000000] = .ok (⟨.nop, .none⟩, []) ∧
  decode [0b01110110] = .ok (⟨.halt, .none⟩, []) ∧
  decode [0b10000001] = .ok (⟨.addAC, .none⟩, []) ∧
  decode [0b01000111] = .ok (⟨.ldBA, .none⟩, []) ∧
  decode [0b01100110] = .ok (⟨.ldHAtHL, .none⟩, []) ∧
  decode [0b01110010] = .ok (⟨.ldAtHLD, .none⟩, []) ∧
  decode [0b00111110, 0x42] = .ok (⟨.ldAImm, .d8 0x42⟩, []) ∧
  decode [0b00110110, 0x07] = .ok (⟨.ldAtHLImm, .d8 0x07⟩, []) ∧
  decode [0b11000011, 0x00, 0x02] = .ok (⟨.jp, .a16 0x0200⟩, []) ∧
  decode [0b11010010, 0x34, 0x12] = .ok (⟨.jpNC, .a16 0x1234⟩, []) ∧
  decode [0b11011100, 0x00, 0x03] = .ok (⟨.callC, .a16 0x0300⟩, []) ∧
  decode [0b11001000] = .ok (⟨.retZ, .none⟩, []) ∧
  decode [0b11100101] = .ok (⟨.pushHL, .none⟩, []) ∧
  decode [0b11110001] = .ok (⟨.popAF, .none⟩, [])

/-- R81: the three opcodes the document assigns. 0xCB is the escape and no unprefixed instruction; 0xC3 lo hi is the
unconditional jump to (hi << 8) | lo; 0x81 is ADD A,C. -/
def Obligations.DocumentedOpcodes : Prop :=
  decodeOpcode 0xCB false = none ∧
  (∀ s, memRead s.pc s = 0xCB → fetchPrefixed s = true ∧ fetchOpcode s = memRead (s.pc + 1) s) ∧
  (∀ s lo hi, s.status = .running → s.halted = false → memRead s.pc s = 0xC3 → memRead (s.pc + 1) s = lo →
    memRead (s.pc + 2) s = hi → step s = .next { s with pc := (hi.setWidth 16 <<< 8) ||| lo.setWidth 16 }) ∧
  decodeOpcode 0x81 false = some .addAC ∧ Instr.addAC.kind = .add .c

/-- The bit fields of R71 to R73 with the codes of R75, R76, R77, read by the decoder: every opcode assembled from its
fields decodes to the instruction with those operands. The codes are general knowledge by the spec's own mark (D4,
log 3). -/
def Obligations.OpcodeFieldLayout : Prop :=
  [Reg8.b.code, Reg8.c.code, Reg8.d.code, Reg8.e.code, Reg8.h.code, Reg8.l.code, Reg8.a.code] = [0, 1, 2, 3, 4, 5, 7] ∧
  [Pair.bc.code, Pair.de.code, Pair.hl.code, Pair.af.code] = [0, 1, 2, 3] ∧
  [Cond.notZero.code, Cond.zero.code, Cond.notCarry.code, Cond.carry.code] = [some 0, some 1, some 2, some 3] ∧
  (∀ r r' : Reg8, (decodeOpcode (0b01#2 ++ r.code ++ r'.code) false).map Instr.kind = some (.ld (.reg r) (.reg r'))) ∧
  (∀ r : Reg8,
    (decodeOpcode (0b10000#5 ++ r.code) false).map Instr.kind = some (.add r) ∧
    (decodeOpcode (0b01#2 ++ r.code ++ 0b110#3) false).map Instr.kind = some (.ld (.reg r) .atHL) ∧
    (decodeOpcode (0b01110#5 ++ r.code) false).map Instr.kind = some (.ld .atHL (.reg r)) ∧
    (decodeOpcode (0b00#2 ++ r.code ++ 0b110#3) false).map Instr.kind = some (.ld (.reg r) .d8)) ∧
  (decodeOpcode 0b00110110 false).map Instr.kind = some (.ld .atHL .d8) ∧
  (∀ c cc, Cond.code c = some cc →
    (decodeOpcode (0b110#3 ++ cc ++ 0b010#3) false).map Instr.kind = some (.jp c) ∧
    (decodeOpcode (0b110#3 ++ cc ++ 0b100#3) false).map Instr.kind = some (.call c) ∧
    (decodeOpcode (0b110#3 ++ cc ++ 0b000#3) false).map Instr.kind = some (.ret c)) ∧
  (∀ p : Pair,
    (decodeOpcode (0b11#2 ++ p.code ++ 0b0101#4) false).map Instr.kind = some (.push p) ∧
    (decodeOpcode (0b11#2 ++ p.code ++ 0b0001#4) false).map Instr.kind = some (.pop p)) ∧
  (decodeOpcode 0x00 false).map Instr.kind = some .nop ∧
  (decodeOpcode 0x76 false).map Instr.kind = some .halt ∧
  (decodeOpcode 0xC3 false).map Instr.kind = some (.jp .always) ∧
  (decodeOpcode 0xCD false).map Instr.kind = some (.call .always) ∧
  (decodeOpcode 0xC9 false).map Instr.kind = some (.ret .always)

/-- R84, R86: the unprefixed table maps exactly the bytes R80 lists and the prefixed table none. Which bytes are mapped is
the spec's decision D3, D5, D6 (log 3, log 20). Clauses 3 and 4, that the decoder over byte lists refuses such bytes, and by
the names `unmapped` and `unmappedPrefixed`, are the model's choice (DESIGN CHOICE, log 17): the spec says only `None` and
decode failure. -/
def Obligations.DecoderMapsExactlyTheTable : Prop :=
  (∀ op : Byte, (decodeOpcode op false).isSome = true ↔
    op ∈ [0x00, 0x06, 0x0E, 0x16, 0x1E, 0x26, 0x2E, 0x36, 0x3E] ∨
    (0x40 ≤ op ∧ op ≤ 0x7F) ∨ (0x80 ≤ op ∧ op ≤ 0x87 ∧ op ≠ 0x86) ∨
    op ∈ [0xC0, 0xC1, 0xC2, 0xC3, 0xC4, 0xC5, 0xC8, 0xC9, 0xCA, 0xCC, 0xCD] ∨
    op ∈ [0xD0, 0xD1, 0xD2, 0xD4, 0xD5, 0xD8, 0xDA, 0xDC, 0xE1, 0xE5, 0xF1, 0xF5]) ∧
  (∀ op : Byte, decodeOpcode op true = none) ∧
  (∀ op bs, op ≠ Config.prefixByte → decodeOpcode op false = none → decode (op :: bs) = .error (.unmapped op)) ∧
  (∀ op bs, decode (Config.prefixByte :: op :: bs) = .error (.unmappedPrefixed op))

/-- R90: the instructions are the values of the closed type, one instruction for each, but for LD (HL),(HL), which is
none: its would-be byte 0x76 is HALT. -/
def Obligations.InstructionsAreTheWellFormedKinds : Prop :=
  (∀ k : Kind, k ≠ .ld .atHL .atHL → ∃! i : Instr, i.kind = k) ∧
  (∀ i : Instr, i.kind ≠ .ld .atHL .atHL) ∧
  decodeOpcode (Kind.opcode (.ld .atHL .atHL)) false = some .halt

/-- Decode and encode agree: for every well-formed line, every operand value and whatever bytes follow. -/
def Obligations.DecodeOfEncode : Prop :=
  ∀ (l : Line) (rest : List Byte), l.wf = true → decode (encode l ++ rest) = .ok (l, rest)

/-- The other direction: what the decoder accepts is a well-formed line whose encoding, followed by the rest, is exactly
the bytes read. So no two encodings stand for one line, and none is accepted by accident (R87). -/
def Obligations.EncodeOfDecode : Prop :=
  ∀ (bs : List Byte) (l : Line) (rest : List Byte),
    decode bs = .ok (l, rest) → l.wf = true ∧ encode l ++ rest = bs

/-! ### The Step -/

/-- R104, R111: a step runs the decoded instruction. When the bytes at `pc` decode to a line, the machine is running, and
it is not halted on another instruction, step is exec of it, and the operand execute reads is the line's. -/
def Obligations.StepRunsDecodedInstruction : Prop :=
  ∀ (s : State) (l : Line) (rest : List Byte),
    decode [memRead s.pc s, memRead (s.pc + 1) s, memRead (s.pc + 2) s] = .ok (l, rest) →
    s.status = .running → (s.halted = true → l.op = .halt) →
    step s = exec l.op s ∧
    (∀ v, l.operand = .d8 v → readOperandByte s = v) ∧
    (∀ w, l.operand = .a16 w → readOperandWord s = w)

/-- R103: an opcode that does not decode ends the Step at once with the decode failure; nothing but `status` changes. -/
def Obligations.DecodeFailureEndsStep : Prop :=
  ∀ s : State, s.status = .running → decodeOpcode (fetchOpcode s) (fetchPrefixed s) = none →
    ∃ bytes, step s = .fault (.decodeFailure bytes (fetchPrefixed s) s.pc) ∧
      s.afterStep = { s with status := .fatal (.decodeFailure bytes (fetchPrefixed s) s.pc) }

/-- R106, R246 (the spec's decision D12): a halted machine that decodes an instruction other than HALT does not execute
it; the run ends and nothing but `status` changes. -/
def Obligations.HaltedMachineRunsOnlyHalt : Prop :=
  ∀ (s : State) (i : Instr), s.status = .running → s.halted = true →
    decodeOpcode (fetchOpcode s) (fetchPrefixed s) = some i → i ≠ .halt →
    step s = .fault (.undefinedWhileHalted s.pc) ∧
    s.afterStep = { s with status := .fatal (.undefinedWhileHalted s.pc) }

/-- R106, R109, R266: a run that has ended never changes again. Halted, on a HALT as in every reachable state, a Step is
the identity (the spec's decisions D11, D12); stopped by a fatal condition, no Step is taken (D13), which the model
says by answering the same condition again (log 7). -/
def Obligations.EndedRunsNeverChange : Prop :=
  ∀ s : State,
    (HaltInv s → s.runEnd = some .halted → step s = .next s ∧ s.afterStep = s) ∧
    (∀ f, s.runEnd = some (.fatal f) → step s = .fault f ∧ s.afterStep = s)

/-- R107: a Step answers a next state or a fatal condition, never anything else; a fatal Step commits none of its effects. -/
def Obligations.StepIsNextOrFatal : Prop :=
  ∀ s : State,
    (∃ t, step s = .next t ∧ s.afterStep = t) ∨
    (∃ f, step s = .fault f ∧ s.afterStep = { s with status := .fatal f })

/-- R230, R231, R232, R237: the fatal conditions a running machine can meet, and their reports: an undecoded opcode, with
the failing bytes, the prefix flag and the address of the first (the spec's decision D25), or an instruction other than
HALT while halted (D12). `Unimplemented` is never raised (D26). -/
def Obligations.FatalConditionsAreTwo : Prop :=
  ∀ (s : State) (f : Fault), s.status = .running →
    (step s = .fault f ↔
      (memRead s.pc s ≠ 0xCB ∧ decodeOpcode (memRead s.pc s) false = none ∧
        f = .decodeFailure [memRead s.pc s] false s.pc) ∨
      (memRead s.pc s = 0xCB ∧ f = .decodeFailure [0xCB, memRead (s.pc + 1) s] true s.pc) ∨
      (s.halted = true ∧ (∃ i, decodeOpcode (memRead s.pc s) false = some i ∧ i ≠ .halt) ∧
        f = .undefinedWhileHalted s.pc))

/-- R235, R237: execute of a mapped instruction cannot fail: every instruction, in every state, answers a next state. -/
def Obligations.ExecutionNeverStops : Prop :=
  ∀ (i : Instr) (s : State), ∃ t, exec i s = .next t

/-- R110: unless it transfers control, an instruction's next `pc` is its length added to `pc`, modulo 2^16, taken
conditionals apart; a taken JP or CALL goes to its operand word, read from the memory the instruction leaves, and a
taken RET to the popped word. HALT's returned value is never written (HaltResult). -/
def Obligations.NextPcIsLengthOrTarget : Prop :=
  ∀ (i : Instr) (s : State), s.halted = false → i ≠ .halt → ∃ t, exec i s = .next t ∧
    (transferTaken i s = false → t.pc = s.pc + BitVec.ofNat 16 i.length) ∧
    (transferTaken i s = true → (∃ c, i.kind = .jp c ∨ i.kind = .call c) →
      t.pc = memReadWord (s.pc + 1) t) ∧
    (transferTaken i s = true → (∃ c, i.kind = .ret c) → t.pc = (pop16 s).1)

/-! ### NOP, HALT, ADD -/

/-- R120, NOP: only `pc` changes. -/
def Obligations.NopResult : Prop :=
  ∀ s : State, s.halted = false → exec .nop s = .next { s with pc := s.pc + 1 }

/-- R121, HALT, halted before or not: only `halted` changes; `pc` stays on the HALT (the spec's decision D11, log 5). -/
def Obligations.HaltResult : Prop :=
  ∀ s : State, exec .halt s = .next { s with halted := true }

/-- R131: the 8-bit add, its four flags, and the facts the rule lists about them. -/
def Obligations.Add8Law : Prop :=
  (∀ a v : Byte,
    ((add8 a v).1.toNat = (a.toNat + v.toNat) % 256) ∧
    ((add8 a v).2.z = true ↔ (a.toNat + v.toNat) % 256 = 0) ∧
    ((add8 a v).2.n = false) ∧
    ((add8 a v).2.c = true ↔ a.toNat + v.toNat > 0xFF) ∧
    ((add8 a v).2.h = true ↔ a.toNat % 16 + v.toNat % 16 > 0xF) ∧
    ((add8 a v).2.z = true ∧ (add8 a v).2.c = false ↔ a = 0 ∧ v = 0) ∧
    ((add8 a v).2.z = true ∧ (add8 a v).2.c = true ↔ a.toNat + v.toNat = 256) ∧
    ((add8 a v).2.z = true → (add8 a v).2.c = true →
      ((add8 a v).2.h = true ↔ ¬(a.toNat % 16 = 0 ∧ v.toNat % 16 = 0)))) ∧
  (∀ c h : Bool, ∃ a v : Byte, (add8 a v).2.z = false ∧ (add8 a v).2.c = c ∧ (add8 a v).2.h = h)

/-- R130, ADD A,r for every r: A, the four flags and `pc`; the source is read before A is written; nothing else changes. -/
def Obligations.AddResult : Prop :=
  ∀ (i : Instr) (r : Reg8) (s : State), i.kind = .add r → s.halted = false →
    exec i s = .next { s with
      regs := { s.regs with a := s.regs.a + readReg r s }
      flags :=
        { z := decide (s.regs.a + readReg r s = 0)
          n := false
          h := decide (s.regs.a.toNat % 16 + (readReg r s).toNat % 16 > 0xF)
          c := decide (s.regs.a.toNat + (readReg r s).toNat > 0xFF) }
      pc := s.pc + 1 }

/-! ### LD -/

/-- R141, LD r,r' for all 49 forms, r = r' among them: the target register gets the source's value and `pc` advances by
1; every other register and everything else is unchanged. -/
def Obligations.LoadRegisterFromRegister : Prop :=
  ∀ (i : Instr) (r r' : Reg8) (s : State), i.kind = .ld (.reg r) (.reg r') → s.halted = false →
    ∃ t, exec i s = .next t ∧ (∀ q, readReg q t = if q = r then readReg r' s else readReg q s) ∧
      t = { s with regs := t.regs, pc := s.pc + 1 }

/-- R142, LD r,(HL): the address is the old HL, also where r is H or L. -/
def Obligations.LoadRegisterFromMemory : Prop :=
  ∀ (i : Instr) (r : Reg8) (s : State), i.kind = .ld (.reg r) .atHL → s.halted = false →
    ∃ t, exec i s = .next t ∧
      (∀ q, readReg q t = if q = r then memRead (joinBytes s.regs.h s.regs.l) s else readReg q s) ∧
      t = { s with regs := t.regs, pc := s.pc + 1 }

/-- R143, LD (HL),r: the one byte at HL gets the register's value, forwarded to the VDEC where HL is in the window
(R45, the spec's decision D9); every other byte and everything else is unchanged. -/
def Obligations.StoreRegisterToMemory : Prop :=
  ∀ (i : Instr) (r : Reg8) (s : State), i.kind = .ld .atHL (.reg r) → s.halted = false →
    ∃ t, exec i s = .next t ∧
      (∀ a, memRead a t = if a = addrHL s then readReg r s else memRead a s) ∧
      t = { s with mem := t.mem, vdec := s.vdec.forward (addrHL s) (readReg r s), pc := s.pc + 1 }

/-- R144, LD r,d8: the byte after the opcode, at a wrapping address; `pc` advances by 2. -/
def Obligations.LoadRegisterImmediate : Prop :=
  ∀ (i : Instr) (r : Reg8) (s : State), i.kind = .ld (.reg r) .d8 → s.halted = false →
    ∃ t, exec i s = .next t ∧ (∀ q, readReg q t = if q = r then memRead (s.pc + 1) s else readReg q s) ∧
      t = { s with regs := t.regs, pc := s.pc + 2 }

/-- R145, LD (HL),d8: the immediate is read before the store; forwarding as in R143. -/
def Obligations.StoreImmediateToMemory : Prop :=
  ∀ s : State, s.halted = false →
    ∃ t, exec .ldAtHLImm s = .next t ∧
      (∀ a, memRead a t = if a = addrHL s then memRead (s.pc + 1) s else memRead a s) ∧
      t = { s with mem := t.mem, vdec := s.vdec.forward (addrHL s) (memRead (s.pc + 1) s), pc := s.pc + 2 }

/-! ### JP, CALL, RET -/

/-- R160, JP a16, with its encoding 0xC3: the next `pc` is the word after the opcode, low byte first, and nothing else
changes; no flag is read. -/
def Obligations.JumpUnconditional : Prop :=
  decodeOpcode 0xC3 false = some .jp ∧ Instr.jp.length = 3 ∧
  ∀ s : State, s.halted = false →
    exec .jp s = .next { s with
      pc := ((memRead (s.pc + 2) s).setWidth 16 <<< 8) ||| (memRead (s.pc + 1) s).setWidth 16 }

/-- R160, R161, JP under every condition: taken, the operand word; not taken, `pc` + 3; nothing else changes. -/
def Obligations.JumpResult : Prop :=
  ∀ (i : Instr) (c : Cond) (s : State), i.kind = .jp c → s.halted = false →
    exec i s = .next { s with
      pc := if condHolds c s.flags then joinBytes (memRead (s.pc + 2) s) (memRead (s.pc + 1) s) else s.pc + 3 }

/-- R162, R163, a taken CALL: the return address `pc` + 3 is pushed, then the operand word is read from the memory the
push has left (the spec's decision D14, log 6), and is the next `pc`. Only the two stack bytes, the VDEC, `sp` and `pc`
change. -/
def Obligations.CallTaken : Prop :=
  ∀ (i : Instr) (c : Cond) (s : State), i.kind = .call c → condHolds c s.flags = true → s.halted = false →
    ∃ t, exec i s = .next t ∧
      (∀ a, memRead a t =
        if a = s.sp - 1 then hiByte (s.pc + 3) else if a = s.sp - 2 then loByte (s.pc + 3) else memRead a s) ∧
      t = { s with
        mem := t.mem
        vdec := (s.vdec.forward (s.sp - 1) (hiByte (s.pc + 3))).forward (s.sp - 2) (loByte (s.pc + 3))
        sp := s.sp - 2
        pc := joinBytes (memRead (s.pc + 2) t) (memRead (s.pc + 1) t) }

/-- R163, a CALL not taken: nothing changes but `pc`, which advances by 3. -/
def Obligations.CallNotTaken : Prop :=
  ∀ (i : Instr) (c : Cond) (s : State), i.kind = .call c → condHolds c s.flags = false → s.halted = false →
    exec i s = .next { s with pc := s.pc + 3 }

/-- R162 corner case (b) (the spec's decision D14, log 6): where the stack bytes and the operand bytes do not meet, the
target is the operand as it stood before; where the stack bytes cover the operand, the target is the return address. -/
def Obligations.CallTargetAndStackOverlap : Prop :=
  ∀ (i : Instr) (c : Cond) (s t : State), i.kind = .call c → condHolds c s.flags = true → s.halted = false →
    exec i s = .next t →
    ((∀ a, a = s.pc + 1 ∨ a = s.pc + 2 → a ≠ s.sp - 1 ∧ a ≠ s.sp - 2) →
      t.pc = joinBytes (memRead (s.pc + 2) s) (memRead (s.pc + 1) s)) ∧
    (s.sp = s.pc + 3 → t.pc = s.pc + 3)

/-- R164, R165, RET under every condition: taken, the popped word is the next `pc` and `sp` grows by 2; not taken, `pc`
advances by 1; nothing else changes. -/
def Obligations.ReturnResult : Prop :=
  ∀ (i : Instr) (c : Cond) (s : State), i.kind = .ret c → s.halted = false →
    exec i s = .next (
      if condHolds c s.flags then
        { s with pc := joinBytes (memRead (s.sp + 1) s) (memRead s.sp s), sp := s.sp + 2 }
      else { s with pc := s.pc + 1 })

/-- R108: the condition evaluation, its dependence on `F.z` and `F.c` alone, and that JP, CALL and RET share it: where the
condition holds, a conditional form does exactly what the unconditional form does; where it does not, only `pc` moves, by
the form's length. -/
def Obligations.ConditionsAreShared : Prop :=
  (∀ f : Flags, condHolds .always f = true ∧ condHolds .notZero f = !f.z ∧ condHolds .notCarry f = !f.c ∧
    condHolds .zero f = f.z ∧ condHolds .carry f = f.c) ∧
  (∀ (c : Cond) (f g : Flags), f.z = g.z → f.c = g.c → condHolds c f = condHolds c g) ∧
  (∀ (i j : Instr) (c : Cond) (s : State),
    (i.kind = .jp c ∧ j.kind = .jp .always) ∨ (i.kind = .call c ∧ j.kind = .call .always) ∨
      (i.kind = .ret c ∧ j.kind = .ret .always) →
    (condHolds c s.flags = true → exec i s = exec j s) ∧
    (condHolds c s.flags = false → s.halted = false →
      exec i s = .next { s with pc := s.pc + BitVec.ofNat 16 i.length }))

/-- A taken CALL followed by a RET comes back (R162, R164, R182): whatever the stack overlaps, the RET executed in the
state the CALL leaves returns to the address after the CALL with `sp` restored. -/
def Obligations.CallThenReturn : Prop :=
  ∀ (i : Instr) (c : Cond) (s t : State), i.kind = .call c → condHolds c s.flags = true → s.halted = false →
    exec i s = .next t → exec .ret t = .next { t with pc := s.pc + 3, sp := s.sp }

/-! ### The stack -/

/-- R180, `Push16`: high byte at `sp - 1`, low byte at `sp - 2`, both forwarded in that order; no other byte and no other
state changes; `sp` wraps. -/
def Obligations.Push16Effect : Prop :=
  ∀ (v : Word) (s : State),
    (∀ a, memRead a (push16 v s) =
      if a = s.sp - 1 then (v >>> 8).setWidth 8 else if a = s.sp - 2 then v.setWidth 8 else memRead a s) ∧
    push16 v s = { s with
      mem := (push16 v s).mem
      vdec := (s.vdec.forward (s.sp - 1) ((v >>> 8).setWidth 8)).forward (s.sp - 2) (v.setWidth 8)
      sp := s.sp - 2 }

/-- R181, `Pop16`: the word at `sp`, low byte first; `sp` grows by 2, wrapping; memory and all else unchanged. -/
def Obligations.Pop16Effect : Prop :=
  ∀ s : State,
    (pop16 s).1 = ((memRead (s.sp + 1) s).setWidth 16 <<< 8) ||| (memRead s.sp s).setWidth 16 ∧
    (pop16 s).2 = { s with sp := s.sp + 2 }

/-- R182: push then pop gives the word back and restores `sp`; pop then push restores `sp` and every byte of memory. For
every `sp`, the wrapping ones too. -/
def Obligations.StackSymmetry : Prop :=
  (∀ (v : Word) (s : State), (pop16 (push16 v s)).1 = v ∧ (pop16 (push16 v s)).2.sp = s.sp) ∧
  (∀ s : State, (push16 (pop16 s).1 (pop16 s).2).sp = s.sp ∧
    ∀ a, memRead a (push16 (pop16 s).1 (pop16 s).2) = memRead a s)

/-- R183, PUSH rr for all four pairs: the two stack bytes, `sp` and `pc`; both bytes are forwarded (R45, the spec's
decision D9); nothing else changes. -/
def Obligations.PushResult : Prop :=
  ∀ (i : Instr) (p : Pair) (s : State), i.kind = .push p → s.halted = false →
    ∃ t, exec i s = .next t ∧
      (∀ a, memRead a t =
        if a = s.sp - 1 then hiByte (readPair p s) else if a = s.sp - 2 then loByte (readPair p s) else memRead a s) ∧
      t = { s with
        mem := t.mem
        vdec := (s.vdec.forward (s.sp - 1) (hiByte (readPair p s))).forward (s.sp - 2) (loByte (readPair p s))
        sp := s.sp - 2
        pc := s.pc + 1 }

/-- R184, POP rr for all four pairs: the word at `sp` goes to the pair, the high byte to the first-named register; POP AF
decodes the flags from the low byte and loses its low nibble, the others leave the flags alone (the spec's decisions D2,
D24, log 4); registers outside the pair, memory and all else are unchanged. -/
def Obligations.PopResult : Prop :=
  ∀ (i : Instr) (p : Pair) (s : State), i.kind = .pop p → s.halted = false →
    ∃ t, exec i s = .next t ∧
      (p ≠ .af → readPair p t = joinBytes (memRead (s.sp + 1) s) (memRead s.sp s) ∧ t.flags = s.flags) ∧
      (p = .af → t.regs.a = memRead (s.sp + 1) s ∧
        t.flags = ⟨(memRead s.sp s).getLsbD 7, (memRead s.sp s).getLsbD 6, (memRead s.sp s).getLsbD 5,
          (memRead s.sp s).getLsbD 4⟩) ∧
      (∀ q, pairHas p q = false → readReg q t = readReg q s) ∧
      t = { s with regs := t.regs, flags := t.flags, sp := s.sp + 2, pc := s.pc + 1 }

/-! ### Registers, flags, pairs -/

/-- R10: the data registers are independent cells: each holds what was last written to it, whatever the value (the count
of seven is the spec's decision D1). -/
def Obligations.RegisterCellsAreIndependent : Prop :=
  ∀ (r q : Reg8) (v : Byte) (s : State),
    readReg q (writeReg r v s) = (if q = r then v else readReg q s) ∧
    writeReg r v s = { s with regs := (writeReg r v s).regs }

/-- R14: the four pairs as views: the first-named register is the high byte, a write changes both halves and nothing else,
and what is read back is what was written, for AF without the low nibble. -/
def Obligations.PairsAreViews : Prop :=
  ∀ (s : State) (v : Word),
    readPair .bc s = (s.regs.b.setWidth 16 <<< 8) ||| s.regs.c.setWidth 16 ∧
    readPair .de s = (s.regs.d.setWidth 16 <<< 8) ||| s.regs.e.setWidth 16 ∧
    readPair .hl s = (s.regs.h.setWidth 16 <<< 8) ||| s.regs.l.setWidth 16 ∧
    readPair .af s = (s.regs.a.setWidth 16 <<< 8) ||| (encodeFlags s.flags).setWidth 16 ∧
    writePair .bc v s = { s with regs := { s.regs with b := (v >>> 8).setWidth 8, c := v.setWidth 8 } } ∧
    writePair .de v s = { s with regs := { s.regs with d := (v >>> 8).setWidth 8, e := v.setWidth 8 } } ∧
    writePair .hl v s = { s with regs := { s.regs with h := (v >>> 8).setWidth 8, l := v.setWidth 8 } } ∧
    writePair .af v s =
      { s with regs := { s.regs with a := (v >>> 8).setWidth 8 }, flags := decodeFlags (v.setWidth 8) } ∧
    (∀ p, p ≠ .af → readPair p (writePair p v s) = v) ∧
    readPair .af (writePair .af v s) = v &&& 0xFFF0

/-- R13, R15: the flags' byte. The positions 7, 6, 5, 4 are the spec's decision D2 (log 4). Round trip from the flags is
lossless, from a byte it keeps the high nibble, and AF's low nibble reads 0 in every state. -/
def Obligations.FlagsByte : Prop :=
  (∀ f : Flags, decodeFlags (encodeFlags f) = f ∧
    encodeFlags f = (if f.z then 0x80 else 0) + (if f.n then 0x40 else 0) + (if f.h then 0x20 else 0) +
      (if f.c then 0x10 else 0)) ∧
  (∀ v : Byte, encodeFlags (decodeFlags v) = v &&& 0xF0) ∧
  (∀ s : State, readPair .af s &&& 0x000F = 0)

/-- R11: which instructions write which data register; no other does. -/
def Obligations.RegisterWriters : Prop :=
  ∀ (i : Instr) (s t : State) (q : Reg8), exec i s = .next t → readReg q t ≠ readReg q s →
    (q = .a ∧ ∃ r, i.kind = .add r) ∨ (∃ src, i.kind = .ld (.reg q) src) ∨ (∃ p, i.kind = .pop p ∧ pairHas p q = true)

/-- R12: only ADD and POP AF write a flag. -/
def Obligations.FlagWriters : Prop :=
  ∀ (i : Instr) (s t : State), exec i s = .next t → t.flags ≠ s.flags → (∃ r, i.kind = .add r) ∨ i = .popAF

/-- R17: `sp` is changed by PUSH, POP and the taken CALL and RET only, each time by 2, wrapping. -/
def Obligations.StackPointerWriters : Prop :=
  ∀ (i : Instr) (s t : State), exec i s = .next t →
    (t.sp = s.sp) ∨
    (t.sp = s.sp - 2 ∧ ((∃ p, i.kind = .push p) ∨ ∃ c, i.kind = .call c ∧ condHolds c s.flags = true)) ∨
    (t.sp = s.sp + 2 ∧ ((∃ p, i.kind = .pop p) ∨ ∃ c, i.kind = .ret c ∧ condHolds c s.flags = true))

/-- R42: which instructions write memory and where: LD to (HL) at HL, PUSH and the taken CALL at the two bytes below
`sp`; a byte anywhere else, or under any other instruction, reads as before. -/
def Obligations.MemoryWriters : Prop :=
  ∀ (i : Instr) (s t : State) (a : Word), exec i s = .next t → memRead a t ≠ memRead a s →
    ((∃ src, i.kind = .ld .atHL src) ∧ a = addrHL s) ∨
    (((∃ p, i.kind = .push p) ∨ ∃ c, i.kind = .call c ∧ condHolds c s.flags = true) ∧ (a = s.sp - 1 ∨ a = s.sp - 2))

/-- R18: `halted` is false after reset, HALT sets it, nothing clears it and nothing else sets it, and while it is set a
Step leaves `pc` where it is. -/
def Obligations.HaltedIsForever : Prop :=
  (∀ sp : Word, (State.resetWith sp).halted = false) ∧
  (∀ s : State, ∃ t, exec .halt s = .next t ∧ t.halted = true) ∧
  (∀ (i : Instr) (s t : State), exec i s = .next t → t.halted = true → s.halted = true ∨ i = .halt) ∧
  (∀ s t : State, step s = .next t → s.halted = true → t.halted = true ∧ t.pc = s.pc)

/-! ### Memory and the video memory decoder -/

/-- R41: every address is readable and writable: a byte written anywhere reads back and no other byte changes. -/
def Obligations.EveryAddressIsAByteCell : Prop :=
  ∀ (a b : Word) (v : Byte) (s : State),
    memRead b (memWrite a v s) = (if b = a then v else memRead b s) ∧
    memWrite a v s = { s with mem := (memWrite a v s).mem, vdec := (memWrite a v s).vdec }

/-- R47: words are little-endian: the operand word has its low byte at `pc` + 1 and its high byte at `pc` + 2; a pushed word
its high byte at `sp` - 1 and its low byte at `sp` - 2; a pop reads the low byte at `sp` and the high byte after it. -/
def Obligations.WordsAreLittleEndian : Prop :=
  ∀ (s : State) (v : Word),
    readOperandWord s = ((memRead (s.pc + 2) s).setWidth 16 <<< 8) ||| (memRead (s.pc + 1) s).setWidth 16 ∧
    memRead (s.sp - 1) (push16 v s) = (v >>> 8).setWidth 8 ∧
    memRead (s.sp - 2) (push16 v s) = v.setWidth 8 ∧
    (pop16 s).1 = ((memRead (s.sp + 1) s).setWidth 16 <<< 8) ||| (memRead s.sp s).setWidth 16

/-- R60: a store is seen by the very next fetch: when LD (HL),r stores to the address after itself, the next Step executes
the instruction whose opcode was stored. -/
def Obligations.StoreIsSeenByNextFetch : Prop :=
  ∀ (i j : Instr) (r : Reg8) (s t : State), i.kind = .ld .atHL (.reg r) → s.status = .running → s.halted = false →
    addrHL s = s.pc + 1 → decodeOpcode (readReg r s) false = some j → exec i s = .next t → step t = exec j t

/-- R45, R210 (the spec's decisions D8, D9; log 2, log 15): a write in 0x8000 .. 0x9FFF is performed on the VDEC at its
window offset, after the store in memory; any other write never reaches the VDEC. -/
def Obligations.WindowWritesAreForwarded : Prop :=
  ∀ (a : Word) (v : Byte) (s : State),
    (∀ o : Offset, a.toNat = 0x8000 + o.val → (memWrite a v s).vdec = s.vdec.write o v) ∧
    (a.toNat < 0x8000 ∨ 0x9FFF < a.toNat → (memWrite a v s).vdec = s.vdec)

/-- R201 to R204, R206, R207: one VDEC write stores the byte, and, in the tile-data sub-region, rewrites exactly the 8
pixels of the one row the byte belongs to, from the row's two bytes as the buffer now holds them; every other byte and
pixel stays. -/
def Obligations.VramWriteEffect : Prop :=
  ∀ (o : Offset) (v : Byte) (d : Vdec),
    (∀ o', (d.write o v).read o' = if o' = o then v else d.read o') ∧
    (∀ (t : Fin Config.nTiles) (row col : Fin 8), (d.write o v).pixel t row col =
      if o.val < 0x1800 ∧ t.val = o.val / 16 ∧ row.val = o.val % 16 / 2 then
        pixelFrom ((d.write o v).read (rowByte1 t row)) ((d.write o v).read (rowByte2 t row)) col
      else d.pixel t row col)

/-- R211: the order in which two different bytes are written does not matter for the buffer or for any pixel. -/
def Obligations.VramWriteOrderIsIrrelevant : Prop :=
  ∀ (o o' : Offset) (v v' : Byte) (d : Vdec), o ≠ o' →
    (∀ q, ((d.write o v).write o' v').read q = ((d.write o' v').write o v).read q) ∧
    (∀ t row col, ((d.write o v).write o' v').pixel t row col = ((d.write o' v').write o v).pixel t row col)

/-! ### Reset, launch, invariants -/

/-- R26, R260: the state after reset, for every SP_RESET (the spec leaves it open, D7; `State.reset` takes log 1's). That
the VDEC starts at zero is the spec's decision D18. -/
def Obligations.ResetValues : Prop :=
  ∀ sp : Word,
    (∀ r, readReg r (State.resetWith sp) = 0) ∧
    encodeFlags (State.resetWith sp).flags = 0 ∧
    (State.resetWith sp).pc = 0x0100 ∧
    (State.resetWith sp).sp = sp ∧
    (State.resetWith sp).halted = false ∧
    (State.resetWith sp).status = .running ∧
    (∀ a, memRead a (State.resetWith sp) = 0) ∧
    (∀ o, (State.resetWith sp).vramRead o = 0) ∧
    (∀ t row col, (State.resetWith sp).pixel t row col = 0) ∧
    State.reset = State.resetWith Config.spReset

/-- R264 (the spec's decision D10): after the load every address holds the image's byte, the VDEC's buffer the window's
bytes, the tiles are the function of the buffer, and the rest is as after reset. -/
def Obligations.LaunchState : Prop :=
  ∀ (sp : Word) (image : Word → Byte),
    (∀ a, memRead a (State.launch sp image) = image a) ∧
    (∀ o, (State.launch sp image).vramRead o = image (windowAddr o)) ∧
    TileInv (State.launch sp image) ∧
    State.launch sp image =
      { State.resetWith sp with mem := (State.launch sp image).mem, vdec := (State.launch sp image).vdec }

/-- R261: the first instruction executed is the one whose first byte is at 0x0100; there is no vector to read, and the
registers are zero. -/
def Obligations.EntryPointIsFixed : Prop :=
  ∀ (sp : Word) (image : Word → Byte) (i : Instr),
    (State.launch sp image).pc = 0x0100 ∧
    (∀ r, readReg r (State.launch sp image) = 0) ∧
    (decodeOpcode (image 0x0100) false = some i →
      step (State.launch sp image) = exec i (State.launch sp image))

/-- The invariant holds after reset, whatever SP_RESET (R23, R106; canonical stores are the model's, log 11). -/
def Obligations.ResetMeetsInvariant : Prop :=
  ∀ sp : Word, Inv (State.resetWith sp)

/-- Every step keeps the canonical form of memory, VDEC buffer and tile cache (the model's representation, log 11), so
that equal memories stay equal data. -/
def Obligations.StepKeepsCanonicalStores : Prop :=
  ∀ s t : State, CanonicalInv s → step s = .next t → CanonicalInv t

/-- R23, R211: every step keeps INV-MIRROR and INV-TILE: the VDEC's buffer equals the window and every pixel is the
function of its row's two bytes (the spec's decisions D9, D10). -/
def Obligations.StepKeepsVideoInvariants : Prop :=
  ∀ s t : State, step s = .next t → (MirrorInv s → MirrorInv t) ∧ (TileInv s → TileInv t)

/-- R106 (the spec's decision D11): every step keeps `halted implies mem[pc] = 0x76`. -/
def Obligations.StepKeepsHaltInvariant : Prop :=
  ∀ s t : State, HaltInv s → step s = .next t → HaltInv t

/-- R23, R106, R266: every reachable state, whatever SP_RESET and image, meets the whole invariant, and once halted every
further Step is the identity. The invariant's canonical stores are the model's choice of representation (DESIGN CHOICE,
log 11); its two video equations rest on the spec's decisions D9 (log 15) and D10 (log 10), the halt clauses on D11
(log 5). -/
def Obligations.ReachableStatesMeetInvariant : Prop :=
  ∀ s : State, Reachable s → Inv s ∧ (s.halted = true → step s = .next s)

/-- R22, R44, R208: the CPU cannot observe the VDEC: replace its whole state and a Step answers the same, but for the VDEC. -/
def Obligations.VdecIsInvisibleToCpu : Prop :=
  ∀ (s : State) (d : Vdec),
    (∀ t, step s = .next t → ∃ d', step { s with vdec := d } = .next { t with vdec := d' }) ∧
    (∀ f, step s = .fault f → step { s with vdec := d } = .fault f)
end

