-- ==== Sys2Proof/Laws/Cells.lean ====
section
/-! SUPPORT. The laws of sparse storage: read after write, and the canonical form is kept. -/

namespace Sys2Proof.Machine.Cells

variable {α : Type} (d : α)

@[simp] theorem read_nil (k : Nat) : read d [] k = d := rfl

theorem read_cons (c : Nat × α) (cs : List (Nat × α)) (k : Nat) :
    read d (c :: cs) k = if k = c.1 then c.2 else read d cs k := rfl

theorem read_remove (k : Nat) (cs : List (Nat × α)) (k' : Nat) :
    read d (remove k cs) k' = if k' = k then d else read d cs k' := by
  induction cs with
  | nil => simp [remove]
  | cons c cs ih =>
    simp only [remove, List.filter_cons] at ih ⊢
    by_cases h : c.1 = k
    · simp only [h, bne_self_eq_false, Bool.false_eq_true, ↓reduceIte, ih, read_cons]
      split <;> simp_all
    · have : (c.1 != k) = true := by simpa using h
      simp only [this, ↓reduceIte, read_cons, ih]
      split
      · rename_i h'
        rw [if_neg (fun e => h (h' ▸ e))]
      · rfl

theorem read_insert (k : Nat) (v : α) (cs : List (Nat × α)) (h : ∀ c ∈ cs, c.1 ≠ k) (k' : Nat) :
    read d (insert k v cs) k' = if k' = k then v else read d cs k' := by
  induction cs with
  | nil => rfl
  | cons c cs ih =>
    simp only [insert]
    split
    · rfl
    · rw [read_cons, ih (fun x hx => h x (List.mem_cons_of_mem _ hx)), read_cons]
      have := h c List.mem_cons_self
      split
      · rename_i h'
        rw [if_neg (fun e => this (h' ▸ e))]
      · rfl

theorem ne_of_mem_remove (k : Nat) (cs : List (Nat × α)) : ∀ c ∈ remove k cs, c.1 ≠ k := by
  intro c hc
  simpa using (List.mem_filter.mp hc).2

/-- Read after write, for any list: the written key gives the written value, every other key what it gave before. -/
@[simp] theorem read_write [DecidableEq α] (cs : List (Nat × α)) (k : Nat) (v : α) (k' : Nat) :
    read d (write d cs k v) k' = if k' = k then v else read d cs k' := by
  unfold write
  split
  · rename_i h
    rw [read_remove, h]
  · rw [read_insert d k v _ (ne_of_mem_remove k cs), read_remove]
    split <;> rfl

theorem mem_insert (k : Nat) (v : α) (cs : List (Nat × α)) (c : Nat × α) :
    c ∈ insert k v cs ↔ c = (k, v) ∨ c ∈ cs := by
  induction cs with
  | nil => simp [insert]
  | cons x cs ih =>
    simp only [insert]
    split
    · simp
    · simp only [List.mem_cons, ih]
      tauto

theorem pairwise_insert (k : Nat) (v : α) (cs : List (Nat × α)) (hs : cs.Pairwise fun x y => x.1 < y.1)
    (h : ∀ c ∈ cs, c.1 ≠ k) : (insert k v cs).Pairwise fun x y => x.1 < y.1 := by
  induction cs with
  | nil => simp [insert]
  | cons x cs ih =>
    have hx := List.pairwise_cons.mp hs
    simp only [insert]
    split
    · rename_i hlt
      refine List.pairwise_cons.mpr ⟨fun y hy => ?_, hs⟩
      rcases List.mem_cons.mp hy with rfl | hy
      · exact hlt
      · exact Nat.lt_trans hlt (hx.1 y hy)
    · rename_i hge
      refine List.pairwise_cons.mpr ⟨fun y hy => ?_, ih hx.2 fun c hc => h c (List.mem_cons_of_mem _ hc)⟩
      rcases (mem_insert k v cs y).mp hy with rfl | hy
      · exact Nat.lt_of_le_of_ne (Nat.le_of_not_lt hge) (h x List.mem_cons_self)
      · exact hx.1 y hy

/-- A write inside the bound keeps the canonical form. -/
theorem write_wf [DecidableEq α] {bound : Nat} {cs : List (Nat × α)} (h : WF d bound cs) {k : Nat} (hk : k < bound)
    (v : α) : WF d bound (write d cs k v) := by
  have hs : (remove k cs).Pairwise fun x y => x.1 < y.1 := List.Pairwise.filter _ h.1
  have hm : ∀ c ∈ remove k cs, c.1 < bound ∧ c.2 ≠ d := fun c hc => h.2 c (List.mem_filter.mp hc).1
  unfold write
  split
  · exact ⟨hs, hm⟩
  · rename_i hv
    refine ⟨pairwise_insert k v _ hs (ne_of_mem_remove k cs), fun c hc => ?_⟩
    rcases (mem_insert k v _ c).mp hc with rfl | hc
    · exact ⟨hk, hv⟩
    · exact hm c hc

/-- A read below every key gives the default. -/
theorem read_of_lt {cs : List (Nat × α)} {k : Nat} (h : ∀ c ∈ cs, k < c.1) : read d cs k = d := by
  induction cs with
  | nil => rfl
  | cons c cs ih =>
    rw [read_cons, if_neg (Nat.ne_of_lt (h c List.mem_cons_self)), ih fun x hx => h x (List.mem_cons_of_mem _ hx)]

/-- Canonical lists that read alike everywhere are equal. -/
theorem ext_of_wf {bound : Nat} : ∀ {cs ds : List (Nat × α)}, WF d bound cs → WF d bound ds →
    (∀ k, read d cs k = read d ds k) → cs = ds
  | [], [], _, _, _ => rfl
  | [], y :: ds, _, hd, h => by
    have := h y.1
    rw [read_nil, read_cons, if_pos rfl] at this
    exact absurd this.symm (hd.2 y List.mem_cons_self).2
  | x :: cs, [], hc, _, h => by
    have := h x.1
    rw [read_nil, read_cons, if_pos rfl] at this
    exact absurd this (hc.2 x List.mem_cons_self).2
  | x :: cs, y :: ds, hc, hd, h => by
    have px := List.pairwise_cons.mp hc.1
    have py := List.pairwise_cons.mp hd.1
    have hx := h x.1
    have hy := h y.1
    rw [read_cons, if_pos rfl, read_cons] at hx
    rw [read_cons, read_cons, if_pos rfl] at hy
    have key : x.1 = y.1 := by
      rcases Nat.lt_trichotomy x.1 y.1 with hlt | he | hlt
      · rw [if_neg (Nat.ne_of_lt hlt), read_of_lt d fun c hc' => Nat.lt_trans hlt (py.1 c hc')] at hx
        exact absurd hx (hc.2 x List.mem_cons_self).2
      · exact he
      · rw [if_neg (Nat.ne_of_lt hlt), read_of_lt d fun c hc' => Nat.lt_trans hlt (px.1 c hc')] at hy
        exact absurd hy.symm (hd.2 y List.mem_cons_self).2
    rw [if_pos key] at hx
    have tails : cs = ds := by
      refine ext_of_wf ⟨px.2, fun c hc' => hc.2 c (List.mem_cons_of_mem _ hc')⟩
        ⟨py.2, fun c hc' => hd.2 c (List.mem_cons_of_mem _ hc')⟩ fun k => ?_
      have hk := h k
      rw [read_cons, read_cons, key] at hk
      by_cases e : k = y.1
      · rw [read_of_lt d fun c hc' => e ▸ key ▸ px.1 c hc', read_of_lt d fun c hc' => e ▸ py.1 c hc']
      · rwa [if_neg e, if_neg e] at hk
    rw [tails, Prod.ext key hx]

end Sys2Proof.Machine.Cells
end

