-- ==== Sys2Proof/Laws/State.lean ====
section
/-! SUPPORT. What each named update of the state does to each field: one lemma per field, true by rfl, so that no later
proof unfolds a record update. -/

namespace Sys2Proof.Machine

variable (s : State) (a : Word) (b : Byte)

@[simp] theorem resetWith_regs (sp : Word) : (State.resetWith sp).regs = ⟨0, 0, 0, 0, 0, 0, 0⟩ := rfl
@[simp] theorem resetWith_flags (sp : Word) : (State.resetWith sp).flags = ⟨false, false, false, false⟩ := rfl
@[simp] theorem resetWith_pc (sp : Word) : (State.resetWith sp).pc = Config.entry := rfl
@[simp] theorem resetWith_sp (sp : Word) : (State.resetWith sp).sp = sp := rfl
@[simp] theorem resetWith_halted (sp : Word) : (State.resetWith sp).halted = false := rfl
@[simp] theorem resetWith_status (sp : Word) : (State.resetWith sp).status = .running := rfl
@[simp] theorem resetWith_mem (sp : Word) : (State.resetWith sp).mem = [] := rfl
@[simp] theorem resetWith_vdec (sp : Word) : (State.resetWith sp).vdec = ⟨[], []⟩ := rfl

@[simp] theorem memWrite_regs : (memWrite a b s).regs = s.regs := rfl
@[simp] theorem memWrite_flags : (memWrite a b s).flags = s.flags := rfl
@[simp] theorem memWrite_pc : (memWrite a b s).pc = s.pc := rfl
@[simp] theorem memWrite_sp : (memWrite a b s).sp = s.sp := rfl
@[simp] theorem memWrite_halted : (memWrite a b s).halted = s.halted := rfl
@[simp] theorem memWrite_status : (memWrite a b s).status = s.status := rfl
@[simp] theorem memWrite_mem : (memWrite a b s).mem = Cells.write 0 s.mem a.toNat b := rfl
@[simp] theorem memWrite_vdec : (memWrite a b s).vdec = s.vdec.forward a b := rfl

@[simp] theorem raiseFatal_regs (f : Fault) : (raiseFatal f s).regs = s.regs := rfl
@[simp] theorem raiseFatal_flags (f : Fault) : (raiseFatal f s).flags = s.flags := rfl
@[simp] theorem raiseFatal_pc (f : Fault) : (raiseFatal f s).pc = s.pc := rfl
@[simp] theorem raiseFatal_sp (f : Fault) : (raiseFatal f s).sp = s.sp := rfl
@[simp] theorem raiseFatal_halted (f : Fault) : (raiseFatal f s).halted = s.halted := rfl
@[simp] theorem raiseFatal_status (f : Fault) : (raiseFatal f s).status = .fatal f := rfl
@[simp] theorem raiseFatal_mem (f : Fault) : (raiseFatal f s).mem = s.mem := rfl
@[simp] theorem raiseFatal_vdec (f : Fault) : (raiseFatal f s).vdec = s.vdec := rfl

@[simp] theorem writeReg_flags (r : Reg8) : (writeReg r b s).flags = s.flags := by cases r <;> rfl
@[simp] theorem writeReg_pc (r : Reg8) : (writeReg r b s).pc = s.pc := by cases r <;> rfl
@[simp] theorem writeReg_sp (r : Reg8) : (writeReg r b s).sp = s.sp := by cases r <;> rfl
@[simp] theorem writeReg_halted (r : Reg8) : (writeReg r b s).halted = s.halted := by cases r <;> rfl
@[simp] theorem writeReg_status (r : Reg8) : (writeReg r b s).status = s.status := by cases r <;> rfl
@[simp] theorem writeReg_mem (r : Reg8) : (writeReg r b s).mem = s.mem := by cases r <;> rfl
@[simp] theorem writeReg_vdec (r : Reg8) : (writeReg r b s).vdec = s.vdec := by cases r <;> rfl

@[simp] theorem writePair_pc (p : Pair) (v : Word) : (writePair p v s).pc = s.pc := by cases p <;> rfl
@[simp] theorem writePair_sp (p : Pair) (v : Word) : (writePair p v s).sp = s.sp := by cases p <;> rfl
@[simp] theorem writePair_halted (p : Pair) (v : Word) : (writePair p v s).halted = s.halted := by cases p <;> rfl
@[simp] theorem writePair_status (p : Pair) (v : Word) : (writePair p v s).status = s.status := by cases p <;> rfl
@[simp] theorem writePair_mem (p : Pair) (v : Word) : (writePair p v s).mem = s.mem := by cases p <;> rfl
@[simp] theorem writePair_vdec (p : Pair) (v : Word) : (writePair p v s).vdec = s.vdec := by cases p <;> rfl

@[simp] theorem writeBack_regs : (writeBack a s).regs = s.regs := by unfold writeBack; split <;> rfl
@[simp] theorem writeBack_flags : (writeBack a s).flags = s.flags := by unfold writeBack; split <;> rfl
@[simp] theorem writeBack_pc : (writeBack a s).pc = if s.halted then s.pc else a := by unfold writeBack; split <;> rfl
@[simp] theorem writeBack_sp : (writeBack a s).sp = s.sp := by unfold writeBack; split <;> rfl
@[simp] theorem writeBack_halted : (writeBack a s).halted = s.halted := by unfold writeBack; split <;> rfl
@[simp] theorem writeBack_status : (writeBack a s).status = s.status := by unfold writeBack; split <;> rfl
@[simp] theorem writeBack_mem : (writeBack a s).mem = s.mem := by unfold writeBack; split <;> rfl
@[simp] theorem writeBack_vdec : (writeBack a s).vdec = s.vdec := by unfold writeBack; split <;> rfl

/-- The write-back of a machine that is not halted. -/
theorem writeBack_running {s : State} (h : s.halted = false) : writeBack a s = { s with pc := a } := by
  simp [writeBack, h]

end Sys2Proof.Machine
end

