-- ==== Sys2Proof/Laws/Video.lean ====
section
/-! SUPPORT. What one write of the VDEC does, said once: to the buffer, to the pixels, and to the canonical form; and which
addresses are forwarded to it. -/

namespace Sys2Proof.Machine

theorem Vdec.rederiveRow_vram (o : Nat) (d : Vdec) : (d.rederiveRow o).vram = d.vram := rfl

/-- The buffer after a write. -/
theorem Vdec.write_vram (o : Offset) (v : Byte) (d : Vdec) :
    (d.write o v).vram = Cells.write 0 d.vram o.val v := by
  unfold Vdec.write
  split <;> rfl

@[simp] theorem Vdec.read_write (o o' : Offset) (v : Byte) (d : Vdec) :
    (d.write o v).read o' = if o' = o then v else d.read o' := by
  simp [Vdec.read, Vdec.write_vram, Fin.ext_iff]

/-- The tile rows after a write: inside the tile-data sub-region the one affected row is decoded anew from the new
buffer; outside it nothing changes. -/
theorem Vdec.write_rows (o : Offset) (v : Byte) (d : Vdec) (key : Nat) :
    Cells.read blankRow (d.write o v).tiles key =
      if o.val < Config.tileDataSize ∧ key = o.val / 2 then
        decodeRow (Cells.read 0 (d.write o v).vram (2 * (o.val / 2)))
          (Cells.read 0 (d.write o v).vram (2 * (o.val / 2) + 1))
      else Cells.read blankRow d.tiles key := by
  rw [Vdec.write_vram]
  unfold Vdec.write
  by_cases h : o.val < Config.tileDataSize
  · have hk : rowKey (o.val / Config.tileBytes) (o.val % Config.tileBytes / 2) = o.val / 2 := by
      unfold rowKey
      simp only [Config.tileBytes]
      omega
    simp only [h, ↓reduceIte, true_and, Vdec.rederiveRow, Cells.read_write, hk]
  · simp only [h, ↓reduceIte, false_and]

/-- The spec's pixel formula is the pair of the two bits. -/
theorem pixelOf_eq (byte1 byte2 : Byte) (col : Fin 8) : pixelOf byte1 byte2 col.val = pixelFrom byte1 byte2 col := by
  unfold pixelOf pixelFrom
  revert col byte1 byte2
  suffices h : ∀ b1 b2 : Bool, ∀ byte1 byte2 : Byte, ∀ n : Nat, byte1.getLsbD n = b1 → byte2.getLsbD n = b2 →
      ((((byte2 >>> n) &&& 1) <<< 1) ||| ((byte1 >>> n) &&& 1)).setWidth 2 = BitVec.ofBool b2 ++ BitVec.ofBool b1 by
    intro x y c
    exact h _ _ x y _ rfl rfl
  intro b1 b2 x y n hx hy
  have key : ∀ (b : Bool) (z : Byte), z.getLsbD n = b → (z >>> n) &&& 1 = if b then 1 else 0 := by
    intro b z hz
    ext i hi
    rw [BitVec.getElem_and, BitVec.getElem_ushiftRight]
    rcases i with _ | i
    · cases b <;> simp [hz]
    · cases b <;> simp [BitVec.getElem_one]
  rw [key b2 y hy, key b1 x hx]
  cases b1 <;> cases b2 <;> rfl

theorem decodeRow_getElem (byte1 byte2 : Byte) (col : Fin 8) :
    (decodeRow byte1 byte2)[col.val] = pixelFrom byte1 byte2 col := by
  simp [decodeRow, ← pixelOf_eq]

theorem pixelFrom_zero (col : Fin 8) : pixelFrom 0 0 col = 0 := by
  simp [pixelFrom]

/-- A write keeps both canonical forms. -/
theorem Vdec.write_wf {d : Vdec} (h : d.wf) (o : Offset) (v : Byte) : (d.write o v).wf := by
  refine ⟨Vdec.write_vram o v d ▸ Cells.write_wf 0 h.1 o.isLt v, ?_⟩
  unfold Vdec.write
  by_cases ho : o.val < Config.tileDataSize
  · simp only [ho, ↓reduceIte, Vdec.rederiveRow]
    refine Cells.write_wf _ h.2 ?_ _
    simp only [rowKey, Config.tileBytes, Config.nTiles, Config.tileDataSize] at *
    omega
  · simpa only [ho, ↓reduceIte] using h.2

theorem Vdec.forward_wf {d : Vdec} (h : d.wf) (a : Word) (v : Byte) : (d.forward a v).wf := by
  unfold Vdec.forward
  split
  · exact Vdec.write_wf h _ v
  · exact h

theorem toNat_windowAddr (o : Offset) : (windowAddr o).toNat = Config.vramBegin + o.val := by
  have ho : o.val < 0x2000 := o.isLt
  rw [windowAddr, BitVec.toNat_ofNat]
  simp only [Config.vramBegin]
  omega

/-- An address is forwarded to offset `o` exactly when it is the address of that offset. -/
theorem windowOffset_eq_some (a : Word) (o : Offset) : windowOffset a = some o ↔ a = windowAddr o := by
  rw [← BitVec.toNat_inj, toNat_windowAddr]
  have ho := o.isLt
  unfold windowOffset
  split
  · rename_i hw
    rw [Option.some.injEq, Fin.ext_iff]
    constructor
    · intro h
      rw [← h, Nat.add_sub_cancel' hw.1]
    · intro h
      simp only [h, Nat.add_sub_cancel_left]
  · rename_i hw
    refine ⟨fun h => (Option.some_ne_none o h.symm).elim, fun h => (hw ⟨h ▸ Nat.le_add_right _ _, ?_⟩).elim⟩
    rwa [h, Nat.add_sub_cancel_left]

@[simp] theorem windowOffset_windowAddr (o : Offset) : windowOffset (windowAddr o) = some o :=
  (windowOffset_eq_some _ _).mpr rfl

/-- The buffer after a CPU write. -/
theorem Vdec.forward_read (a : Word) (v : Byte) (d : Vdec) (o : Offset) :
    (d.forward a v).read o = if windowAddr o = a then v else d.read o := by
  unfold Vdec.forward
  split
  · rename_i o' h
    rw [Vdec.read_write, (windowOffset_eq_some a o').mp h]
    by_cases e : o = o'
    · rw [if_pos e, if_pos (congrArg _ e)]
    · rw [if_neg e, if_neg]
      intro e'
      have := windowOffset_windowAddr o
      rw [e', windowOffset_windowAddr] at this
      exact e (Option.some.inj this).symm
  · rename_i h
    rw [if_neg]
    intro e
    rw [← e, windowOffset_windowAddr] at h
    cases h

end Sys2Proof.Machine
end

