-- ==== Sys2Proof/Laws/Ops.lean ====
section
/-! SUPPORT. One specification per shared operation over memory, stack and registers; the meanings' proofs cite these and
never unfold the operations. -/

namespace Sys2Proof.Machine

/-- Read after write, in every state. -/
@[simp] theorem memRead_memWrite (a a' : Word) (v : Byte) (s : State) :
    memRead a' (memWrite a v s) = if a' = a then v else memRead a' s := by
  simp [memRead, ← BitVec.toNat_inj]

/-- A read depends on the memory alone. -/
theorem memRead_congr {s t : State} (h : s.mem = t.mem) (a : Word) : memRead a s = memRead a t := by
  unfold memRead
  rw [h]

@[simp] theorem memRead_resetWith (a sp : Word) : memRead a (State.resetWith sp) = 0 := rfl

@[simp] theorem hiByte_joinBytes (hi lo : Byte) : hiByte (joinBytes hi lo) = hi := by
  change BitVec.extractLsb' 8 8 (hi ++ lo : BitVec (8 + 8)) = hi
  ext i h
  rw [BitVec.getElem_extractLsb', BitVec.getLsbD_append]
  simp [h]

@[simp] theorem loByte_joinBytes (hi lo : Byte) : loByte (joinBytes hi lo) = lo := by
  change BitVec.extractLsb' 0 8 (hi ++ lo : BitVec (8 + 8)) = lo
  ext i h
  rw [BitVec.getElem_extractLsb', BitVec.getLsbD_append]
  simp [h]

@[simp] theorem joinBytes_hi_lo (v : Word) : joinBytes (hiByte v) (loByte v) = v := by
  unfold joinBytes hiByte loByte
  ext i h
  rw [BitVec.getElem_append]
  split
  · simp_all
  · rename_i h'
    rw [BitVec.getElem_extractLsb', ← BitVec.getLsbD_eq_getElem]
    congr 1
    omega

/-- Joining is the spec's `(hi << 8) | lo`. -/
theorem joinBytes_eq_shift (hi lo : Byte) : joinBytes hi lo = (hi.setWidth 16 <<< 8) ||| lo.setWidth 16 := by
  change (hi ++ lo : BitVec (8 + 8)) = _
  ext i h
  rw [BitVec.getElem_append, BitVec.getElem_or, BitVec.getElem_shiftLeft]
  by_cases h8 : i < 8
  · simp [h8]
  · have h' : i - 8 < 8 := by omega
    simp [h8, BitVec.getLsbD_of_ge lo i (by omega), BitVec.getLsbD_eq_getElem h']

theorem hiByte_eq_shift (v : Word) : hiByte v = (v >>> 8).setWidth 8 := by
  unfold hiByte
  ext i h
  simp

theorem loByte_eq_setWidth (v : Word) : loByte v = v.setWidth 8 := by
  unfold loByte
  ext i h
  simp

/-- The operand word from its two bytes (R78). -/
theorem readOperandWord_eq (s : State) :
    readOperandWord s = joinBytes (memRead (s.pc + 2) s) (memRead (s.pc + 1) s) := by
  have h : s.pc + 1 + 1 = s.pc + 2 := by bv_omega
  simp only [readOperandWord, memReadWord, h]

/-- Everything a push does (R180). -/
theorem push16_spec (v : Word) (s : State) :
    (push16 v s).regs = s.regs ∧ (push16 v s).flags = s.flags ∧ (push16 v s).pc = s.pc ∧
    (push16 v s).sp = s.sp - 2 ∧ (push16 v s).halted = s.halted ∧ (push16 v s).status = s.status ∧
    (∀ a, memRead a (push16 v s) =
      if a = s.sp - 1 then hiByte v else if a = s.sp - 2 then loByte v else memRead a s) ∧
    (push16 v s).vdec = (s.vdec.forward (s.sp - 1) (hiByte v)).forward (s.sp - 2) (loByte v) := by
  have h2 : s.sp - 1 - 1 = s.sp - 2 := by bv_omega
  have hne : s.sp - 1 ≠ s.sp - 2 := by bv_omega
  refine ⟨rfl, rfl, rfl, h2, rfl, rfl, fun a => ?_, ?_⟩
  · have hr : memRead a (push16 v s) =
        if a = s.sp - 1 - 1 then loByte v else memRead a (memWrite (s.sp - 1) (hiByte v) s) := by
      unfold push16
      rw [memRead_memWrite]
      rfl
    rw [hr, h2, memRead_memWrite]
    by_cases e1 : a = s.sp - 1
    · rw [if_pos e1, if_pos e1, if_neg (e1 ▸ hne)]
    · rw [if_neg e1, if_neg e1]
  · simp only [push16, memWrite_vdec, memWrite_sp, h2]

/-- Everything a pop does (R181). -/
theorem pop16_spec (s : State) :
    pop16 s = (joinBytes (memRead (s.sp + 1) s) (memRead s.sp s), { s with sp := s.sp + 2 }) := by
  have h2 : s.sp + 1 + 1 = s.sp + 2 := by bv_omega
  simp only [pop16, h2]
  rfl

/-- Register read after register write (R10). -/
@[simp] theorem readReg_writeReg (r q : Reg8) (v : Byte) (s : State) :
    readReg q (writeReg r v s) = if q = r then v else readReg q s := by
  cases r <;> cases q <;> rfl

@[simp] theorem readReg_memWrite (r : Reg8) (a : Word) (v : Byte) (s : State) :
    readReg r (memWrite a v s) = readReg r s := rfl

@[simp] theorem readReg_writeBack (r : Reg8) (a : Word) (s : State) : readReg r (writeBack a s) = readReg r s := by
  unfold readReg
  rw [writeBack_regs]

@[simp] theorem memRead_writeBack (a b : Word) (s : State) : memRead a (writeBack b s) = memRead a s :=
  memRead_congr (writeBack_mem s b) a

@[simp] theorem memRead_writeReg (a : Word) (r : Reg8) (v : Byte) (s : State) :
    memRead a (writeReg r v s) = memRead a s := memRead_congr (writeReg_mem s v r) a

@[simp] theorem memRead_writePair (a : Word) (p : Pair) (v : Word) (s : State) :
    memRead a (writePair p v s) = memRead a s := memRead_congr (writePair_mem s p v) a

/-- A memory write keeps the canonical form of all three stores. -/
theorem memWrite_canonical {s : State} (h : CanonicalInv s) (a : Word) (v : Byte) : CanonicalInv (memWrite a v s) :=
  ⟨Cells.write_wf 0 h.1 a.isLt v, Vdec.forward_wf h.2 a v⟩

theorem storeBytes_canonical (a : Word) (bs : List Byte) {s : State} (h : CanonicalInv s) :
    CanonicalInv (storeBytes a bs s) := by
  induction bs generalizing a s with
  | nil => exact h
  | cons b bs ih => exact ih (a + 1) (memWrite_canonical h a b)

/-- A load as a fold of writes: which bytes it leaves, for any list of addresses (R264). -/
theorem memRead_foldl_memWrite (image : Word → Byte) (as : List Word) (s : State) (b : Word) :
    memRead b (as.foldl (fun t a => memWrite a (image a) t) s) = if b ∈ as then image b else memRead b s := by
  induction as generalizing s with
  | nil => simp
  | cons a as ih =>
    rw [List.foldl_cons, ih, memRead_memWrite]
    by_cases h : b ∈ as
    · simp [h]
    · by_cases h' : b = a <;> simp [h, h']

/-- The loader writes every address. -/
theorem mem_allAddresses (a : Word) : a ∈ allAddresses :=
  List.mem_map.mpr ⟨a.toNat, List.mem_range.mpr a.isLt, by simp⟩

/-- The other side of a load: it changes memory and the VDEC only. -/
theorem foldl_memWrite_frame (image : Word → Byte) (as : List Word) (s : State) :
    as.foldl (fun t a => memWrite a (image a) t) s =
      { s with
        mem := (as.foldl (fun t a => memWrite a (image a) t) s).mem
        vdec := (as.foldl (fun t a => memWrite a (image a) t) s).vdec } := by
  induction as generalizing s with
  | nil => rfl
  | cons a as ih => exact ih (memWrite a (image a) s)

/-- Memory after a launch is the image (R264). -/
@[simp] theorem memRead_launch (sp : Word) (image : Word → Byte) (a : Word) :
    memRead a (State.launch sp image) = image a :=
  (memRead_foldl_memWrite image _ _ a).trans (if_pos (mem_allAddresses a))

@[simp] theorem launch_pc (sp : Word) (image : Word → Byte) : (State.launch sp image).pc = Config.entry :=
  congrArg State.pc (foldl_memWrite_frame image allAddresses (State.resetWith sp))

@[simp] theorem launch_status (sp : Word) (image : Word → Byte) : (State.launch sp image).status = .running :=
  congrArg State.status (foldl_memWrite_frame image allAddresses (State.resetWith sp))

/-- Reset memory is canonical. -/
theorem resetWith_canonical (sp : Word) : CanonicalInv (State.resetWith sp) := by
  simp [CanonicalInv, Memory.wf, Vdec.wf, Cells.WF]

end Sys2Proof.Machine
end

