-- ==== Sys2Proof/Laws/Exec.lean ====
section
/-! SUPPORT. What exec and step do, said once: exec of an instruction is the operation of its kind, and a step is a
selected instruction's exec or a fatal stop. Proofs split on the nine kinds, not on 103 constructors. -/

namespace Sys2Proof.Machine

/-- The operation of each kind of instruction. -/
def Kind.run (k : Kind) (s : State) : State :=
  match k with
  | .nop => noOperation s
  | .halt => haltCpu s
  | .add r => addToA r s
  | .ld dst src => loadByte dst src s
  | .jp c => jump c s
  | .call c => callSub c s
  | .ret c => returnSub c s
  | .push p => pushPair p s
  | .pop p => popPair p s

/-- exec is the operation of the instruction's kind. -/
theorem exec_eq_run (i : Instr) (s : State) : exec i s = .next (Kind.run i.kind s) := by
  cases i <;> rfl

/-- HALT's operation (R121): the guard sees the new `halted`. -/
theorem run_halt (s : State) : Kind.run .halt s = { s with halted := true } := by
  simp [Kind.run, haltCpu, writeBack]

/-- What every memory write keeps, every operation keeps: memory and the VDEC change through `memWrite` alone. -/
theorem run_keeps (P : Memory → Vdec → Prop)
    (hP : ∀ s a v, P s.mem s.vdec → P (memWrite a v s).mem (memWrite a v s).vdec) (k : Kind) (s : State)
    (h : P s.mem s.vdec) : P (Kind.run k s).mem (Kind.run k s).vdec := by
  have hpush : ∀ v, P (push16 v s).mem (push16 v s).vdec := fun v => hP _ _ _ (hP _ _ _ h)
  rcases k with _ | _ | r | ⟨dst, src⟩ | c | c | c | p | p
  case nop => simpa [Kind.run, noOperation] using h
  case halt => rwa [run_halt]
  case add => simpa [Kind.run, addToA] using h
  case ld =>
    cases dst with
    | reg r => simpa [Kind.run, loadByte, writeDst] using h
    | atHL =>
      simp only [Kind.run, loadByte, writeDst, writeBack_mem, writeBack_vdec]
      exact hP s _ _ h
  case jp =>
    simp only [Kind.run, jump]
    split <;> simpa using h
  case call =>
    simp only [Kind.run, callSub]
    split
    · simpa only [writeBack_mem, writeBack_vdec] using hpush _
    · simpa using h
  case ret =>
    simp only [Kind.run, returnSub, pop16_spec]
    split <;> simpa using h
  case push =>
    simp only [Kind.run, pushPair, writeBack_mem, writeBack_vdec]
    exact hpush _
  case pop =>
    simp only [Kind.run, popPair, pop16_spec]
    simpa using h

/-- No operation touches `status`. -/
theorem run_status (k : Kind) (s : State) : (Kind.run k s).status = s.status := by
  rcases k with _ | _ | r | ⟨dst, src⟩ | c | c | c | p | p
  case nop => simp [Kind.run, noOperation]
  case halt => rw [run_halt]
  case add => simp [Kind.run, addToA]
  case ld => cases dst <;> simp [Kind.run, loadByte, writeDst]
  case jp =>
    simp only [Kind.run, jump]
    split <;> simp
  case call =>
    simp only [Kind.run, callSub]
    split
    · rw [writeBack_status, (push16_spec _ s).2.2.2.2.2.1]
    · simp
  case ret =>
    simp only [Kind.run, returnSub, pop16_spec]
    split <;> simp
  case push => rw [Kind.run, pushPair, writeBack_status, (push16_spec _ s).2.2.2.2.2.1]
  case pop => simp [Kind.run, popPair, pop16_spec]

/-- The add of R131 as wrapping addition with its flags. -/
theorem add8_eq (a v : Byte) : add8 a v = (a + v,
    { z := decide (a + v = 0)
      n := false
      h := decide (a.toNat % 16 + v.toNat % 16 > 0xF)
      c := decide (a.toNat + v.toNat > 0xFF) }) := by
  have hsum : BitVec.ofNat 8 (a.toNat + v.toNat) = a + v := by
    apply BitVec.eq_of_toNat_eq
    simp
  have hnib : ∀ x : Byte, (x &&& 0xF).toNat = x.toNat % 16 := fun x => by
    rw [BitVec.toNat_and]
    exact Nat.and_two_pow_sub_one_eq_mod _ 4
  simp only [add8, hsum, hnib]

/-- HALT is the one instruction of kind halt. -/
theorem kind_eq_halt {i : Instr} : i.kind = .halt ↔ i = .halt := by
  cases i <;> simp [Instr.kind]

/-- When fetch and decode select an instruction. -/
theorem selectInstr_eq_ok {s : State} {i : Instr} :
    selectInstr s = .ok i ↔ s.status = .running ∧ decodeOpcode (fetchOpcode s) (fetchPrefixed s) = some i ∧
      (s.halted = true → i = .halt) := by
  unfold selectInstr
  cases s.status with
  | fatal f => simp
  | running =>
    cases decodeOpcode (fetchOpcode s) (fetchPrefixed s) with
    | none => simp
    | some j =>
      cases s.halted with
      | false => simp
      | true =>
        by_cases h : j = .halt
        · subst h
          simp only [bne_self_eq_false, Bool.and_false, Bool.false_eq_true, ↓reduceIte, Except.ok.injEq, true_and,
            Option.some.injEq, forall_const]
          exact ⟨fun e => ⟨e, e.symm⟩, And.left⟩
        · have : (j != .halt) = true := by simpa using h
          simp only [this, Bool.and_self, ↓reduceIte, reduceCtorEq, true_and, Option.some.injEq, forall_const, false_iff]
          rintro ⟨rfl, e⟩
          exact h e

/-- When fetch and decode end the Step, and with which condition. -/
theorem selectInstr_eq_error {s : State} {f : Fault} :
    selectInstr s = .error f ↔ s.status = .fatal f ∨ s.status = .running ∧
      (decodeOpcode (fetchOpcode s) (fetchPrefixed s) = none ∧ f = decodeFault s ∨
       ∃ i, decodeOpcode (fetchOpcode s) (fetchPrefixed s) = some i ∧ s.halted = true ∧ i ≠ .halt ∧
         f = .undefinedWhileHalted s.pc) := by
  unfold selectInstr
  cases s.status with
  | fatal g => simp
  | running =>
    cases decodeOpcode (fetchOpcode s) (fetchPrefixed s) with
    | none =>
      simp only [Except.error.injEq, reduceCtorEq, true_and, false_and, exists_false, or_false, false_or]
      exact ⟨Eq.symm, Eq.symm⟩
    | some j =>
      cases s.halted with
      | false => simp
      | true =>
        by_cases h : j = .halt
        · simp [h]
        · have hb : (j != .halt) = true := by simpa using h
          simp only [hb, Bool.and_self, ↓reduceIte, Except.error.injEq, reduceCtorEq, true_and, false_and, false_or,
            Option.some.injEq]
          exact ⟨fun e => ⟨j, rfl, h, e.symm⟩, fun ⟨_, _, _, e⟩ => e.symm⟩

/-- Every next state of step is the operation of the selected instruction's kind. -/
theorem step_eq_next {s t : State} : step s = .next t ↔ ∃ i, selectInstr s = .ok i ∧ t = Kind.run i.kind s := by
  unfold step
  cases selectInstr s with
  | ok i => simp [exec_eq_run, eq_comm]
  | error f => simp

/-- step faults exactly when no instruction is selected. -/
theorem step_eq_fault {s : State} {f : Fault} : step s = .fault f ↔ selectInstr s = .error f := by
  unfold step
  cases selectInstr s with
  | ok i => simp [exec_eq_run]
  | error g => simp

theorem fetchPrefixed_eq_true {s : State} (h : memRead s.pc s = Config.prefixByte) : fetchPrefixed s = true :=
  decide_eq_true h

theorem fetchPrefixed_eq_false {s : State} (h : memRead s.pc s ≠ Config.prefixByte) : fetchPrefixed s = false :=
  decide_eq_false h

/-- The prefixed table is empty. -/
theorem decodeOpcode_prefixed (op : Byte) : decodeOpcode op true = none := rfl

/-- An instruction is only ever selected unprefixed, from the byte at `pc`. -/
theorem selectInstr_opcode {s : State} {i : Instr} (h : selectInstr s = .ok i) :
    fetchPrefixed s = false ∧ decodeOpcode (memRead s.pc s) false = some i := by
  obtain ⟨-, hd, -⟩ := selectInstr_eq_ok.mp h
  have hp : fetchPrefixed s = false := by
    cases e : fetchPrefixed s with
    | false => rfl
    | true => rw [e, decodeOpcode_prefixed] at hd; cases hd
  refine ⟨hp, ?_⟩
  rwa [hp, fetchOpcode, hp] at hd

end Sys2Proof.Machine
end

