-- ==== Sys2Proof/Tests/Slice0.lean ====
section
/-! SUPPORT. The model's own tests: the well-formedness smoke, every opcode byte written out bit by bit from the Encoding
lines of spec/, single Steps whose expected results are the vectors of 95_test_vectors.md, and for each statement with
hypotheses a witness that meets them all. -/

namespace Sys2Proof.Tests

open Sys2Proof.Machine

/-! ### Ill-formed terms are refused -/

theorem test_wf_refuses_ld_atHL_atHL : Kind.wf (.ld .atHL .atHL) = false := by decide
theorem test_wf_accepts_ld_atHL_d8 : Kind.wf (.ld .atHL .d8) = true := by decide
theorem test_wf_refuses_operand_after_f1 : Line.wf ⟨.nop, .d8 0⟩ = false ∧ Line.wf ⟨.ret, .a16 0⟩ = false := by decide
theorem test_wf_refuses_missing_or_wide_d8 :
    Line.wf ⟨.ldBImm, .none⟩ = false ∧ Line.wf ⟨.ldAtHLImm, .a16 0⟩ = false := by decide
theorem test_wf_refuses_missing_or_narrow_a16 :
    Line.wf ⟨.jp, .none⟩ = false ∧ Line.wf ⟨.callZ, .d8 0⟩ = false := by decide

/-! ### Every constructor's decoding, by the byte its rule's Encoding line gives -/

/-- Each byte decodes, unprefixed, to its instruction. -/
def decodesAll (l : List (Byte × Instr)) : Bool := l.all fun p => decide (decodeOpcode p.1 false = some p.2)

/-- R120: 0x00; R121: 0x76. -/
theorem test_decode_nop_halt : decodesAll
    [(0b00000000, .nop), (0b01110110, .halt)] = true := by decide

/-- R130: `10000zzz`. -/
theorem test_decode_add : decodesAll
    [(0b10000_000, .addAB), (0b10000_001, .addAC), (0b10000_010, .addAD), (0b10000_011, .addAE),
     (0b10000_100, .addAH), (0b10000_101, .addAL), (0b10000_111, .addAA)] = true := by decide

/-- R141: `01yyyzzz` with y = 000. -/
theorem test_decode_ld_b_r : decodesAll
    [(0b01_000_000, .ldBB), (0b01_000_001, .ldBC), (0b01_000_010, .ldBD), (0b01_000_011, .ldBE),
     (0b01_000_100, .ldBH), (0b01_000_101, .ldBL), (0b01_000_111, .ldBA)] = true := by decide

/-- R141: `01yyyzzz` with y = 001. -/
theorem test_decode_ld_c_r : decodesAll
    [(0b01_001_000, .ldCB), (0b01_001_001, .ldCC), (0b01_001_010, .ldCD), (0b01_001_011, .ldCE),
     (0b01_001_100, .ldCH), (0b01_001_101, .ldCL), (0b01_001_111, .ldCA)] = true := by decide

/-- R141: `01yyyzzz` with y = 010. -/
theorem test_decode_ld_d_r : decodesAll
    [(0b01_010_000, .ldDB), (0b01_010_001, .ldDC), (0b01_010_010, .ldDD), (0b01_010_011, .ldDE),
     (0b01_010_100, .ldDH), (0b01_010_101, .ldDL), (0b01_010_111, .ldDA)] = true := by decide

/-- R141: `01yyyzzz` with y = 011. -/
theorem test_decode_ld_e_r : decodesAll
    [(0b01_011_000, .ldEB), (0b01_011_001, .ldEC), (0b01_011_010, .ldED), (0b01_011_011, .ldEE),
     (0b01_011_100, .ldEH), (0b01_011_101, .ldEL), (0b01_011_111, .ldEA)] = true := by decide

/-- R141: `01yyyzzz` with y = 100. -/
theorem test_decode_ld_h_r : decodesAll
    [(0b01_100_000, .ldHB), (0b01_100_001, .ldHC), (0b01_100_010, .ldHD), (0b01_100_011, .ldHE),
     (0b01_100_100, .ldHH), (0b01_100_101, .ldHL), (0b01_100_111, .ldHA)] = true := by decide

/-- R141: `01yyyzzz` with y = 101. -/
theorem test_decode_ld_l_r : decodesAll
    [(0b01_101_000, .ldLB), (0b01_101_001, .ldLC), (0b01_101_010, .ldLD), (0b01_101_011, .ldLE),
     (0b01_101_100, .ldLH), (0b01_101_101, .ldLL), (0b01_101_111, .ldLA)] = true := by decide

/-- R141: `01yyyzzz` with y = 111. -/
theorem test_decode_ld_a_r : decodesAll
    [(0b01_111_000, .ldAB), (0b01_111_001, .ldAC), (0b01_111_010, .ldAD), (0b01_111_011, .ldAE),
     (0b01_111_100, .ldAH), (0b01_111_101, .ldAL), (0b01_111_111, .ldAA)] = true := by decide

/-- R142: `01yyy110`. -/
theorem test_decode_ld_r_atHL : decodesAll
    [(0b01_000_110, .ldBAtHL), (0b01_001_110, .ldCAtHL), (0b01_010_110, .ldDAtHL), (0b01_011_110, .ldEAtHL),
     (0b01_100_110, .ldHAtHL), (0b01_101_110, .ldLAtHL), (0b01_111_110, .ldAAtHL)] = true := by decide

/-- R143: `01110zzz`. -/
theorem test_decode_ld_atHL_r : decodesAll
    [(0b01110_000, .ldAtHLB), (0b01110_001, .ldAtHLC), (0b01110_010, .ldAtHLD), (0b01110_011, .ldAtHLE),
     (0b01110_100, .ldAtHLH), (0b01110_101, .ldAtHLL), (0b01110_111, .ldAtHLA)] = true := by decide

/-- R144: `00yyy110`. -/
theorem test_decode_ld_r_d8 : decodesAll
    [(0b00_000_110, .ldBImm), (0b00_001_110, .ldCImm), (0b00_010_110, .ldDImm), (0b00_011_110, .ldEImm),
     (0b00_100_110, .ldHImm), (0b00_101_110, .ldLImm), (0b00_111_110, .ldAImm)] = true := by decide

/-- R145: 0x36. -/
theorem test_decode_ld_atHL_d8 : decodesAll
    [(0b00_110_110, .ldAtHLImm)] = true := by decide

/-- R160: 0xC3; R161: `110cc010`. -/
theorem test_decode_jp : decodesAll
    [(0b110_00_011, .jp), (0b110_00_010, .jpNZ), (0b110_01_010, .jpZ), (0b110_10_010, .jpNC),
     (0b110_11_010, .jpC)] = true := by decide

/-- R162: 0xCD; R163: `110cc100`. -/
theorem test_decode_call : decodesAll
    [(0b110_01_101, .call), (0b110_00_100, .callNZ), (0b110_01_100, .callZ), (0b110_10_100, .callNC),
     (0b110_11_100, .callC)] = true := by decide

/-- R164: 0xC9; R165: `110cc000`. -/
theorem test_decode_ret : decodesAll
    [(0b110_01_001, .ret), (0b110_00_000, .retNZ), (0b110_01_000, .retZ), (0b110_10_000, .retNC),
     (0b110_11_000, .retC)] = true := by decide

/-- R183: `11pp0101`. -/
theorem test_decode_push : decodesAll
    [(0b11_00_0101, .pushBC), (0b11_01_0101, .pushDE), (0b11_10_0101, .pushHL), (0b11_11_0101, .pushAF)] = true := by decide

/-- R184: `11pp0001`. -/
theorem test_decode_pop : decodesAll
    [(0b11_00_0001, .popBC), (0b11_01_0001, .popDE), (0b11_10_0001, .popHL), (0b11_11_0001, .popAF)] = true := by decide

/-- R73, R47: the operand word's low byte comes first, in both directions. -/
theorem test_encode_jp : encode ⟨.jp, .a16 0x0200⟩ = [0xC3, 0x00, 0x02] := by decide
theorem test_decode_call_operand : (match decode [0xCD, 0x34, 0x12, 0x76] with
    | .ok (l, rest) => decide (l = ⟨.call, .a16 0x1234⟩ ∧ rest = [0x76])
    | .error _ => false) = true := by decide
theorem test_decode_refuses : (match decode [0x86] with
    | .ok _ => false
    | .error e => decide (e = .unmapped 0x86)) = true := by decide
theorem test_table_word : decodeTableWord 16 0x423E = some .ldAImm ∧ decodeTableWord 8 0xCB = none ∧
    decodeTableWord 24 0x0200C3 = some .jp := by decide

/-! ### Single Steps (95_test_vectors.md) -/

/-- The launch states of the vectors: reset with `sp`, then registers, flags and `pc` as the vector says. -/
def start (sp pc : Word) (regs : Regs) (f8 : Byte) : State :=
  { State.resetWith sp with pc := pc, regs := regs, flags := decodeFlags f8 }

/-- All registers zero. -/
def noRegs : Regs := ⟨0, 0, 0, 0, 0, 0, 0⟩

/-- Bytes placed from an address on, as the loader places them. -/
def withBytes (a : Word) (bs : List Byte) (s : State) : State := storeBytes a bs s

/-- Whether one Step answers a next state with a property. -/
def stepNext (s : State) (p : State → Bool) : Bool :=
  match step s with
  | .next t => p t
  | .fault _ => false
  | .refused _ => false

/-- Whether one Step ends with a fatal condition. -/
def stepFault (s : State) (f : Fault) : Bool :=
  match step s with
  | .next _ => false
  | .fault g => decide (g = f)
  | .refused _ => false

/-- The pixels of a tile row. -/
def rowOf (s : State) (t : Fin Config.nTiles) (row : Fin 8) : List Pixel :=
  (List.finRange 8).map fun col => s.pixel t row col

/-- V-NOP-2. -/
theorem test_nop_wraps_pc : stepNext
    (withBytes 0xFFFF [0x00] (start 0x0000 0xFFFF noRegs 0x00))
    (fun t => decide (t.pc = 0x0000)) = true := by decide

/-- V-HALT-3. -/
theorem test_halt_keeps_pc : stepNext
    (withBytes 0xFFFF [0x76] (start 0x0000 0xFFFF noRegs 0x00))
    (fun t => decide (t.halted = true ∧ t.pc = 0xFFFF)) = true := by decide

/-- V-ADD-1, S7. -/
theorem test_add_c_wraps : stepNext
    (withBytes 0x0100 [0x81] (start 0x0000 0x0100 ⟨0xFF, 0x00, 0x01, 0x00, 0x00, 0x00, 0x00⟩ 0x00))
    (fun t => decide (t.regs.a = 0 ∧ encodeFlags t.flags = 0xB0 ∧ t.regs.c = 0x01 ∧ t.pc = 0x0101)) = true := by decide

/-- V-ADD-3. -/
theorem test_add_d_no_half : stepNext
    (withBytes 0x0100 [0x82] (start 0x0000 0x0100 ⟨0xF0, 0x00, 0x00, 0x10, 0x00, 0x00, 0x00⟩ 0x00))
    (fun t => decide (t.regs.a = 0 ∧ encodeFlags t.flags = 0x90)) = true := by decide

/-- V-ADD-11. -/
theorem test_add_a_a : stepNext
    (withBytes 0x0100 [0x87] (start 0x0000 0x0100 ⟨0x90, 0x00, 0x00, 0x00, 0x00, 0x00, 0x00⟩ 0x00))
    (fun t => decide (t.regs.a = 0x20 ∧ encodeFlags t.flags = 0x10)) = true := by decide

/-- V-ADD-13. -/
theorem test_add_b_clears_flags : stepNext
    (withBytes 0x0100 [0x80] (start 0x0000 0x0100 ⟨0x01, 0x01, 0x00, 0x00, 0x00, 0x00, 0x00⟩ 0xF0))
    (fun t => decide (t.regs.a = 0x02 ∧ encodeFlags t.flags = 0x00)) = true := by decide

/-- V-LD-1. -/
theorem test_ld_b_a : stepNext
    (withBytes 0x0100 [0x47] (start 0x0000 0x0100 ⟨0x42, 0x00, 0x00, 0x00, 0x00, 0x00, 0x00⟩ 0x00))
    (fun t => decide (t.regs.b = 0x42 ∧ t.regs.a = 0x42 ∧ t.pc = 0x0101)) = true := by decide

/-- V-LD-3. -/
theorem test_ld_l_h : stepNext
    (withBytes 0x0100 [0x6C] (start 0x0000 0x0100 ⟨0x00, 0x00, 0x00, 0x00, 0x00, 0x12, 0x34⟩ 0x00))
    (fun t => decide (t.regs.l = 0x12 ∧ t.regs.h = 0x12)) = true := by decide

/-- V-LD-5. -/
theorem test_ld_h_atHL_uses_old_HL : stepNext
    (withBytes 0xC010 [0xD5] (withBytes 0x0100 [0x66] (start 0x0000 0x0100 ⟨0x00, 0x00, 0x00, 0x00, 0x00, 0xC0, 0x10⟩ 0x00)))
    (fun t => decide (t.regs.h = 0xD5 ∧ t.regs.l = 0x10)) = true := by decide

/-- V-LD-6. -/
theorem test_ld_l_atHL_own_opcode : stepNext
    (withBytes 0x0100 [0x6E] (start 0x0000 0x0100 ⟨0x00, 0x00, 0x00, 0x00, 0x00, 0x01, 0x00⟩ 0x00))
    (fun t => decide (t.regs.l = 0x6E)) = true := by decide

/-- V-LD-8. -/
theorem test_ld_atHL_h : stepNext
    (withBytes 0x0100 [0x74] (start 0x0000 0x0100 ⟨0x00, 0x00, 0x00, 0x00, 0x00, 0xC1, 0x23⟩ 0x00))
    (fun t => decide (memRead 0xC123 t = 0xC1)) = true := by decide

/-- V-LD-9. -/
theorem test_ld_atHL_l : stepNext
    (withBytes 0x0100 [0x75] (start 0x0000 0x0100 ⟨0x00, 0x00, 0x00, 0x00, 0x00, 0xC1, 0x23⟩ 0x00))
    (fun t => decide (memRead 0xC123 t = 0x23)) = true := by decide

/-- V-LD-10, S6. -/
theorem test_ld_a_d8 : stepNext
    (withBytes 0x0100 [0x3E, 0x42] (start 0x0000 0x0100 noRegs 0x00))
    (fun t => decide (t.regs.a = 0x42 ∧ t.pc = 0x0102)) = true := by decide

/-- V-LD-12. -/
theorem test_ld_a_d8_wraps : stepNext
    (withBytes 0xFFFF [0x3E, 0x99] (start 0x0000 0xFFFF noRegs 0x00))
    (fun t => decide (t.regs.a = 0x99 ∧ t.pc = 0x0001)) = true := by decide

/-- V-LD-13. -/
theorem test_ld_atHL_d8_map_area : stepNext
    (withBytes 0x0100 [0x36, 0x07] (start 0x0000 0x0100 ⟨0x00, 0x00, 0x00, 0x00, 0x00, 0x98, 0x00⟩ 0x00))
    (fun t => decide (memRead 0x9800 t = 0x07 ∧ t.vramRead 0x1800 = 0x07 ∧ t.vdec.tiles = [] ∧ t.pc = 0x0102)) = true := by decide

/-- V-LD-14. -/
theorem test_ld_atHL_a_decodes : stepNext
    (withBytes 0x0100 [0x77] (start 0x0000 0x0100 ⟨0xFF, 0x00, 0x00, 0x00, 0x00, 0x80, 0x00⟩ 0x00))
    (fun t => decide (memRead 0x8000 t = 0xFF ∧ t.vramRead 0 = 0xFF ∧ rowOf t 0 0 = [1, 1, 1, 1, 1, 1, 1, 1])) = true := by decide

/-- V-LD-17. -/
theorem test_ld_atHL_a_last_row : stepNext
    (withBytes 0x97FE [0x80] (withBytes 0x0100 [0x77] (start 0x0000 0x0100 ⟨0x80, 0x00, 0x00, 0x00, 0x00, 0x97, 0xFF⟩ 0x00)))
    (fun t => decide (t.vramRead 0x17FF = 0x80 ∧ rowOf t 383 7 = [3, 0, 0, 0, 0, 0, 0, 0])) = true := by decide

/-- V-JP-3. -/
theorem test_jp_operand_wraps : stepNext
    (withBytes 0xFFFE [0xC3, 0x34, 0x12] (start 0x0000 0xFFFE noRegs 0x00))
    (fun t => decide (t.pc = 0x1234)) = true := by decide

/-- V-JP-4. -/
theorem test_jp_nz_not_taken : stepNext
    (withBytes 0x0104 [0xC2, 0x00, 0x02] (start 0x0000 0x0104 noRegs 0x80))
    (fun t => decide (t.pc = 0x0107)) = true := by decide

/-- V-JP-5. -/
theorem test_jp_z_taken : stepNext
    (withBytes 0x0104 [0xCA, 0x00, 0x02] (start 0x0000 0x0104 noRegs 0x80))
    (fun t => decide (t.pc = 0x0200)) = true := by decide

/-- V-JP-7. -/
theorem test_jp_c_taken : stepNext
    (withBytes 0x0104 [0xDA, 0x00, 0x02] (start 0x0000 0x0104 noRegs 0x10))
    (fun t => decide (t.pc = 0x0200)) = true := by decide

/-- V-JP-9. -/
theorem test_jp_nc_ignores_n_and_h : stepNext
    (withBytes 0x0104 [0xD2, 0x00, 0x02] (start 0x0000 0x0104 noRegs 0x60))
    (fun t => decide (t.pc = 0x0200)) = true := by decide

/-- V-CALL-1. -/
theorem test_call_pushes : stepNext
    (withBytes 0x0100 [0xCD, 0x00, 0x02] (start 0xFFFE 0x0100 noRegs 0x00))
    (fun t => decide (t.sp = 0xFFFC ∧ memRead 0xFFFD t = 0x01 ∧ memRead 0xFFFC t = 0x03 ∧ t.pc = 0x0200)) = true := by decide

/-- V-CALL-3. -/
theorem test_call_over_own_operand : stepNext
    (withBytes 0x0100 [0xCD, 0x34, 0x12] (start 0x0103 0x0100 noRegs 0x00))
    (fun t => decide (memRead 0x0102 t = 0x01 ∧ memRead 0x0101 t = 0x03 ∧ t.sp = 0x0101 ∧ t.pc = 0x0103)) = true := by decide

/-- V-CALL-2. -/
theorem test_call_c_not_taken : stepNext
    (withBytes 0x0100 [0xDC, 0x00, 0x03] (start 0xD000 0x0100 noRegs 0x00))
    (fun t => decide (t.pc = 0x0103 ∧ t.sp = 0xD000)) = true := by decide

/-- V-CALL-2b. -/
theorem test_call_nc_taken : stepNext
    (withBytes 0x0100 [0xD4, 0x00, 0x03] (start 0xD000 0x0100 noRegs 0x00))
    (fun t => decide (t.sp = 0xCFFE ∧ memRead 0xCFFF t = 0x01 ∧ memRead 0xCFFE t = 0x03 ∧ t.pc = 0x0300)) = true := by decide

/-- V-CALL-5; 44 R162 corner case (c). -/
theorem test_call_into_window : stepNext
    (withBytes 0x0100 [0xCD, 0x00, 0x02] (start 0x8002 0x0100 noRegs 0x00))
    (fun t => decide (t.vramRead 1 = 0x01 ∧ t.vramRead 0 = 0x03 ∧ rowOf t 0 0 = [0, 0, 0, 0, 0, 0, 1, 3] ∧ t.sp = 0x8000)) = true := by decide

/-- V-RET-4. -/
theorem test_ret_wraps : stepNext
    (withBytes 0xFFFF [0xCD, 0xAB] (withBytes 0x0100 [0xC9] (start 0xFFFF 0x0100 noRegs 0x00)))
    (fun t => decide (t.pc = 0xABCD ∧ t.sp = 0x0001)) = true := by decide

/-- V-RET-2. -/
theorem test_ret_nz_taken : stepNext
    (withBytes 0xCFFE [0x34, 0x12] (withBytes 0x0300 [0xC0] (start 0xCFFE 0x0300 noRegs 0x00)))
    (fun t => decide (t.pc = 0x1234 ∧ t.sp = 0xD000)) = true := by decide

/-- V-RET-3. -/
theorem test_ret_nc_not_taken : stepNext
    (withBytes 0xCFFE [0x34, 0x12] (withBytes 0x0300 [0xD0] (start 0xCFFE 0x0300 noRegs 0x10)))
    (fun t => decide (t.pc = 0x0301 ∧ t.sp = 0xCFFE)) = true := by decide

/-- V-PUSH-3. -/
theorem test_push_hl_wraps : stepNext
    (withBytes 0x0100 [0xE5] (start 0x0001 0x0100 ⟨0x00, 0x00, 0x00, 0x00, 0x00, 0xAA, 0xBB⟩ 0x00))
    (fun t => decide (t.sp = 0xFFFF ∧ memRead 0x0000 t = 0xAA ∧ memRead 0xFFFF t = 0xBB)) = true := by decide

/-- V-PUSH-4. -/
theorem test_push_af : stepNext
    (withBytes 0x0100 [0xF5] (start 0xD000 0x0100 ⟨0x7A, 0x00, 0x00, 0x00, 0x00, 0x00, 0x00⟩ 0xB0))
    (fun t => decide (memRead 0xCFFF t = 0x7A ∧ memRead 0xCFFE t = 0xB0 ∧ t.sp = 0xCFFE)) = true := by decide

/-- V-PUSH-5. -/
theorem test_push_bc_into_window : stepNext
    (withBytes 0x0100 [0xC5] (start 0x8002 0x0100 ⟨0x00, 0xF0, 0x0F, 0x00, 0x00, 0x00, 0x00⟩ 0x00))
    (fun t => decide (t.vramRead 1 = 0xF0 ∧ t.vramRead 0 = 0x0F ∧ rowOf t 0 0 = [2, 2, 2, 2, 1, 1, 1, 1])) = true := by decide

/-- V-PUSH-6. -/
theorem test_push_de : stepNext
    (withBytes 0x0100 [0xD5] (start 0xC100 0x0100 ⟨0x00, 0x00, 0x00, 0xDE, 0xAD, 0x00, 0x00⟩ 0x00))
    (fun t => decide (memRead 0xC0FF t = 0xDE ∧ memRead 0xC0FE t = 0xAD ∧ t.sp = 0xC0FE)) = true := by decide

/-- V-POP-1. -/
theorem test_pop_bc : stepNext
    (withBytes 0xCFFE [0x34, 0x12] (withBytes 0x0100 [0xC1] (start 0xCFFE 0x0100 noRegs 0x00)))
    (fun t => decide (t.regs.b = 0x12 ∧ t.regs.c = 0x34 ∧ t.sp = 0xD000)) = true := by decide

/-- V-POP-2. -/
theorem test_pop_de_wraps : stepNext
    (withBytes 0xFFFF [0xCD, 0xAB] (withBytes 0x0100 [0xD1] (start 0xFFFF 0x0100 noRegs 0x00)))
    (fun t => decide (t.regs.d = 0xAB ∧ t.regs.e = 0xCD ∧ t.sp = 0x0001)) = true := by decide

/-- V-POP-6. -/
theorem test_pop_hl : stepNext
    (withBytes 0xCFFE [0x78, 0x56] (withBytes 0x0100 [0xE1] (start 0xCFFE 0x0100 noRegs 0x00)))
    (fun t => decide (t.regs.h = 0x56 ∧ t.regs.l = 0x78)) = true := by decide

/-- V-POP-3. -/
theorem test_pop_af_drops_low_nibble : stepNext
    (withBytes 0xCFFE [0xBF, 0x7A] (withBytes 0x0100 [0xF1] (start 0xCFFE 0x0100 noRegs 0x00)))
    (fun t => decide (t.regs.a = 0x7A ∧ t.flags = ⟨true, false, true, true⟩ ∧ encodeFlags t.flags = 0xB0)) = true := by decide

/-- V-POP-4. -/
theorem test_pop_af_sets_n : stepNext
    (withBytes 0xCFFE [0x4F, 0x00] (withBytes 0x0100 [0xF1] (start 0xCFFE 0x0100 noRegs 0x00)))
    (fun t => decide (t.flags = ⟨false, true, false, false⟩)) = true := by decide

/-- V-DF-1. -/
theorem test_undecoded_byte : stepFault
    (withBytes 0x0100 [0xD3] (start 0x0000 0x0100 noRegs 0x00))
    (.decodeFailure [0xD3] false 0x0100) = true := by decide

/-- V-DF-2. -/
theorem test_prefixed_byte : stepFault
    (withBytes 0x0100 [0xCB, 0x7C] (start 0x0000 0x0100 noRegs 0x00))
    (.decodeFailure [0xCB, 0x7C] true 0x0100) = true := by decide

/-- V-DF-5. -/
theorem test_double_prefix : stepFault
    (withBytes 0x0100 [0xCB, 0xCB] (start 0x0000 0x0100 noRegs 0x00))
    (.decodeFailure [0xCB, 0xCB] true 0x0100) = true := by decide

/-- V-DF-7. -/
theorem test_prefix_wraps : stepFault
    (withBytes 0xFFFF [0xCB, 0x76] (start 0x0000 0xFFFF noRegs 0x00))
    (.decodeFailure [0xCB, 0x76] true 0xFFFF) = true := by decide

/-- R246. -/
theorem test_nop_while_halted : stepFault
    ({ withBytes 0x0100 [0x00] (start 0x0000 0x0100 noRegs 0x00) with halted := true })
    (.undefinedWhileHalted 0x0100) = true := by decide

/-- V-DF-1: only `status` changes. -/
theorem test_undecoded_byte_state : (withBytes 0x0100 [0xD3] (start 0x0000 0x0100 noRegs 0x00)).afterStep =
    { withBytes 0x0100 [0xD3] (start 0x0000 0x0100 noRegs 0x00) with
      status := .fatal (.decodeFailure [0xD3] false 0x0100) } := by decide

/-! ### The video memory decoder (95_test_vectors.md, section 2.7) -/

/-- The VDEC after reset. -/
def vdec0 : Vdec := ⟨[], []⟩

/-- The pixels of a tile row of a VDEC. -/
def vrow (d : Vdec) (t : Fin Config.nTiles) (row : Fin 8) : List Pixel :=
  (List.finRange 8).map fun col => d.pixel t row col

/-- V-VD-1, S8. -/
theorem test_vdec_source_example : (fun d : Vdec => decide (vrow d 0 0 = [1, 1, 1, 1, 1, 1, 1, 1]))
    ((vdec0.write 0 0xFF).write 1 0x00) = true := by decide

/-- V-VD-3. -/
theorem test_vdec_both_planes : (fun d : Vdec => decide (vrow d 0 0 = [3, 3, 3, 3, 3, 3, 3, 3]))
    ((vdec0.write 1 0xFF).write 0 0xFF) = true := by decide

/-- V-VD-4. -/
theorem test_vdec_row_of_tile_18 : (fun d : Vdec => decide (vrow d 18 1 = [2, 0, 3, 1, 1, 3, 0, 2]))
    ((vdec0.write 0x122 0x3C).write 0x123 0xA5) = true := by decide

/-- V-VD-6, V-VD-7. -/
theorem test_vdec_map_area : (fun d : Vdec => decide (d.read 0x1800 = 0xFF ∧ d.read 0x1FFF = 0xFF ∧ d.tiles = []))
    ((vdec0.write 0x1800 0xFF).write 0x1FFF 0xFF) = true := by decide

/-- V-VD-8. -/
theorem test_vdec_next_tile : (fun d : Vdec => decide (vrow d 1 0 = [0, 0, 0, 0, 0, 0, 0, 1] ∧ vrow d 0 0 = [0, 0, 0, 0, 0, 0, 0, 0]))
    (vdec0.write 0x0010 0x01) = true := by decide

/-- V-VD-9. -/
theorem test_vdec_last_row_of_tile : (fun d : Vdec => decide (vrow d 0 7 = [1, 0, 0, 0, 0, 0, 0, 0]))
    (vdec0.write 0x000E 0x80) = true := by decide

/-- V-VD-10: and the canonical form lists nothing for it. -/
theorem test_vdec_rewriting_clears : (fun d : Vdec => decide (d = vdec0))
    ((vdec0.write 0 0xFF).write 0 0x00) = true := by decide

/-- Log 11: writing 0x00 removes the entry, and equal memories are equal data. -/
theorem test_canonical_memory : (memWrite 0xC000 0 (memWrite 0xC000 5 (memWrite 0x0001 7 State.reset))).mem = [(1, 7)] := by decide

/-- R264: the word is stored where the next Step fetches. -/
theorem test_withFetchWord : stepNext (State.reset.withFetchWord 24 0x0200C3) (fun t => decide (t.pc = 0x0200)) = true := by decide

/-! ### Witnesses: for each statement with hypotheses, a state and operands that meet them all -/

/-- Reset with a stack in the middle of memory, and bytes at 0x0100. -/
def code (bs : List Byte) : State := withBytes 0x0100 bs (start 0xD000 0x0100 ⟨1, 2, 3, 4, 5, 0xC0, 0x10⟩ 0x10)

theorem witness_DocumentedOpcodes : 
    memRead (code [0xCB]).pc (code [0xCB]) = 0xCB ∧ (code [0xC3, 0xFF, 0xFF]).status = .running ∧
    (code [0xC3, 0xFF, 0xFF]).halted = false ∧ memRead 0x0100 (code [0xC3, 0xFF, 0xFF]) = 0xC3 ∧
    (code [0xC3, 0xFF, 0xFF]).pc = 0x0100 := by decide

theorem witness_OpcodeFieldLayout : Cond.code .notZero = some 0 ∧ Cond.code .carry = some 3 := by decide

theorem witness_DecoderMapsExactlyTheTable : (0x01 : Byte) ≠ Config.prefixByte ∧ decodeOpcode 0x01 false = none ∧
    (0xFF : Byte) ≠ Config.prefixByte ∧ decodeOpcode 0xFF false = none := by decide

theorem witness_InstructionsAreTheWellFormedKinds : Kind.ld .atHL .d8 ≠ .ld .atHL .atHL := by decide

theorem witness_DecodeOfEncode : Line.wf ⟨.jpC, .a16 0xFFFF⟩ = true ∧ Line.wf ⟨.ldAtHLImm, .d8 0xFF⟩ = true ∧
    Line.wf ⟨.popAF, .none⟩ = true := by decide

theorem witness_EncodeOfDecode : decode [0xDC, 0x34, 0x12, 0x00] = .ok (⟨.callC, .a16 0x1234⟩, [0x00]) := rfl

theorem witness_StepRunsDecodedInstruction : 
    decode [memRead (code [0x3E, 0x42]).pc (code [0x3E, 0x42]), memRead ((code [0x3E, 0x42]).pc + 1) (code [0x3E, 0x42]),
      memRead ((code [0x3E, 0x42]).pc + 2) (code [0x3E, 0x42])] = .ok (⟨.ldAImm, .d8 0x42⟩, [0x00]) ∧
    (code [0x3E, 0x42]).status = .running ∧ (code [0x3E, 0x42]).halted = false := ⟨rfl, rfl, rfl⟩

theorem witness_StepRunsDecodedInstruction_halted : 
    let s := { code [0x76] with halted := true }
    decode [memRead s.pc s, memRead (s.pc + 1) s, memRead (s.pc + 2) s] = .ok (⟨.halt, .none⟩, [0x00, 0x00]) ∧
    s.status = .running ∧ s.halted = true := ⟨rfl, rfl, rfl⟩

theorem witness_DecodeFailureEndsStep : (code [0xD3]).status = .running ∧
    decodeOpcode (fetchOpcode (code [0xD3])) (fetchPrefixed (code [0xD3])) = none ∧
    decodeOpcode (fetchOpcode (code [0xCB, 0x00])) (fetchPrefixed (code [0xCB, 0x00])) = none := by decide

theorem witness_HaltedMachineRunsOnlyHalt : 
    let s := { code [0x00] with halted := true }
    s.status = .running ∧ s.halted = true ∧ decodeOpcode (fetchOpcode s) (fetchPrefixed s) = some .nop ∧
    Instr.nop ≠ .halt := by decide

theorem witness_EndedRunsNeverChange_halted : HaltInv { code [0x76] with halted := true } ∧
    State.runEnd { code [0x76] with halted := true } = some .halted := ⟨fun _ => by decide, by decide⟩

theorem witness_EndedRunsNeverChange_fatal : 
    (raiseFatal (.undefinedWhileHalted 0) (code [])).runEnd = some (.fatal (.undefinedWhileHalted 0)) := by decide

/-- One state for each of the three clauses. -/
theorem witness_FatalConditionsAreTwo : (code [0xD3]).status = .running ∧
    stepFault (code [0xD3]) (.decodeFailure [0xD3] false 0x0100) = true ∧
    stepFault (code [0xCB, 0x7C]) (.decodeFailure [0xCB, 0x7C] true 0x0100) = true ∧
    stepFault { code [0x00] with halted := true } (.undefinedWhileHalted 0x0100) = true := by decide

theorem witness_NextPcIsLengthOrTarget : (code []).halted = false ∧ Instr.jpNC ≠ .halt ∧
    transferTaken .jpNC (code []) = false ∧ transferTaken .jpC (code []) = true ∧ Instr.jpC.kind = .jp .carry ∧
    transferTaken .callNZ (code []) = true ∧ Instr.callNZ.kind = .call .notZero ∧
    transferTaken .retC (code []) = true ∧ Instr.retC.kind = .ret .carry := by decide

theorem witness_NopResult : (code [0x00]).halted = false := by decide

theorem witness_AddResult : Instr.addAH.kind = .add .h ∧ Instr.addAA.kind = .add .a ∧ (code [0x84]).halted = false := by decide

theorem witness_LoadRegisterFromRegister : Instr.ldHL.kind = .ld (.reg .h) (.reg .l) ∧ Instr.ldBB.kind = .ld (.reg .b) (.reg .b) ∧
    (code [0x65]).halted = false := by decide

theorem witness_LoadRegisterFromMemory : Instr.ldLAtHL.kind = .ld (.reg .l) .atHL ∧ (code [0x6E]).halted = false := by decide

theorem witness_StoreRegisterToMemory : Instr.ldAtHLH.kind = .ld .atHL (.reg .h) ∧ (code [0x74]).halted = false := by decide

theorem witness_LoadRegisterImmediate : Instr.ldAImm.kind = .ld (.reg .a) .d8 ∧ (code [0x3E]).halted = false := by decide

theorem witness_StoreImmediateToMemory : (code [0x36]).halted = false := by decide

theorem witness_JumpUnconditional : (code [0xC3]).halted = false := by decide

/-- Taken and not taken. -/
theorem witness_JumpResult : Instr.jpC.kind = .jp .carry ∧ (code []).halted = false ∧ condHolds .carry (code []).flags = true ∧
    condHolds .zero (code []).flags = false := by decide

theorem witness_CallTaken : Instr.callC.kind = .call .carry ∧ condHolds .carry (code []).flags = true ∧ (code []).halted = false := by decide

theorem witness_CallNotTaken : Instr.callZ.kind = .call .zero ∧ condHolds .zero (code []).flags = false ∧ (code []).halted = false := by decide

/-- A stack clear of the operand, and one over it. -/
theorem witness_CallTargetAndStackOverlap : Instr.call.kind = .call .always ∧
    condHolds .always (code []).flags = true ∧ (code []).halted = false ∧
    (∃ t, exec .call (code [0xCD, 0x34, 0x12]) = .next t) ∧
    (∀ a, a = (code []).pc + 1 ∨ a = (code []).pc + 2 → a ≠ (code []).sp - 1 ∧ a ≠ (code []).sp - 2) ∧
    ({ code [] with sp := 0x0103 } : State).sp = (code []).pc + 3 := 
  ⟨rfl, rfl, rfl, ⟨_, rfl⟩, by rintro a (rfl | rfl) <;> decide, rfl⟩

theorem witness_ReturnResult : Instr.retC.kind = .ret .carry ∧ (code []).halted = false ∧ condHolds .carry (code []).flags = true ∧
    Instr.retNC.kind = .ret .notCarry ∧ condHolds .notCarry (code []).flags = false := by decide

theorem witness_ConditionsAreShared : (Instr.jpC.kind = .jp .carry ∧ Instr.jp.kind = .jp .always) ∧
    (Instr.callC.kind = .call .carry ∧ Instr.call.kind = .call .always) ∧
    (Instr.retC.kind = .ret .carry ∧ Instr.ret.kind = .ret .always) ∧
    condHolds .carry (code []).flags = true ∧ condHolds .zero (code []).flags = false ∧ (code []).halted = false ∧
    (⟨true, false, false, true⟩ : Flags).z = (⟨true, true, true, true⟩ : Flags).z ∧
    (⟨true, false, false, true⟩ : Flags).c = (⟨true, true, true, true⟩ : Flags).c := by decide

theorem witness_CallThenReturn : Instr.call.kind = .call .always ∧ condHolds .always (code []).flags = true ∧
    (code []).halted = false ∧ ∃ t, exec .call (code [0xCD, 0x00, 0x02]) = .next t := ⟨rfl, rfl, rfl, ⟨_, rfl⟩⟩

theorem witness_PushResult : Instr.pushAF.kind = .push .af ∧ (code []).halted = false := by decide

theorem witness_PopResult : Instr.popAF.kind = .pop .af ∧ Instr.popHL.kind = .pop .hl ∧ (code []).halted = false ∧
    pairHas .hl .a = false ∧ Pair.hl ≠ .af := by decide

theorem witness_PairsAreViews : Pair.bc ≠ .af := by decide

theorem witness_RegisterWriters : 
    let s := code [0x80]
    ∃ t, exec .addAB s = .next t ∧ readReg .a t ≠ readReg .a s := ⟨_, rfl, by decide⟩

theorem witness_FlagWriters : 
    let s := code [0x80]
    ∃ t, exec .addAB s = .next t ∧ t.flags ≠ s.flags := ⟨_, rfl, by decide⟩

theorem witness_StackPointerWriters : ∃ t, exec .pushBC (code [0xC5]) = .next t := ⟨_, rfl⟩

theorem witness_MemoryWriters : 
    let s := code [0x70]
    ∃ t, exec .ldAtHLB s = .next t ∧ memRead 0xC010 t ≠ memRead 0xC010 s := ⟨_, rfl, by decide⟩

theorem witness_HaltedIsForever : (∃ t, exec .halt (code [0x76]) = .next t ∧ t.halted = true) ∧
    (∃ t, step { code [0x76] with halted := true } = .next t) := ⟨⟨_, rfl, rfl⟩, ⟨_, rfl⟩⟩

theorem witness_StoreIsSeenByNextFetch : 
    let s := { code [0x77] with regs := ⟨0x76, 0, 0, 0, 0, 0x01, 0x01⟩ }
    Instr.ldAtHLA.kind = .ld .atHL (.reg .a) ∧ s.status = .running ∧ s.halted = false ∧ addrHL s = s.pc + 1 ∧
    decodeOpcode (readReg .a s) false = some .halt ∧ ∃ t, exec .ldAtHLA s = .next t := 
  ⟨rfl, rfl, rfl, by decide, by decide, ⟨_, rfl⟩⟩

/-- Both ends of the window, and one address outside each. -/
theorem witness_WindowWritesAreForwarded : (0x8000 : Word).toNat = 0x8000 + (0 : Offset).val ∧
    (0x9FFF : Word).toNat = 0x8000 + (0x1FFF : Offset).val ∧ (0x7FFF : Word).toNat < 0x8000 ∧
    0x9FFF < (0xA000 : Word).toNat := by decide

/-- The last byte that is decoded and the first that is not (R203). -/
theorem witness_VramWriteEffect : (vdec0.write 0x17FF 0xFF).read 0x17FF = 0xFF ∧ vrow (vdec0.write 0x17FF 0xFF) 383 7 = [2, 2, 2, 2, 2, 2, 2, 2] ∧
    vrow (vdec0.write 0x1800 0xFF) 383 7 = [0, 0, 0, 0, 0, 0, 0, 0] := by decide

theorem witness_VramWriteOrderIsIrrelevant : (0x17FE : Offset) ≠ 0x17FF := by decide

theorem witness_EntryPointIsFixed : decodeOpcode ((fun _ => 0 : Word → Byte) 0x0100) false = some .nop := by decide

/-- Reset meets R23's two equations. -/
theorem reset_video : MirrorInv State.reset ∧ TileInv State.reset := by
  refine ⟨fun _ => rfl, fun t row col => ?_⟩
  have h : pixelFrom 0 0 col = 0 := by simp [pixelFrom]
  exact (show (Vdec.mk [] []).pixel t row col = 0 by simp [Vdec.pixel, Cells.read]).trans h.symm

theorem witness_StepKeepsCanonicalStores : CanonicalInv State.reset ∧ ∃ t, step State.reset = .next t := ⟨⟨by decide, by decide, by decide⟩, ⟨_, rfl⟩⟩

theorem witness_StepKeepsVideoInvariants : MirrorInv State.reset ∧ TileInv State.reset ∧ ∃ t, step State.reset = .next t := 
  ⟨reset_video.1, reset_video.2, ⟨_, rfl⟩⟩

theorem witness_StepKeepsHaltInvariant : HaltInv { code [0x76] with halted := true } ∧
    ∃ t, step { code [0x76] with halted := true } = .next t := ⟨fun _ => by decide, ⟨_, rfl⟩⟩

theorem witness_ReachableStatesMeetInvariant : Reachable (State.launch 0 fun _ => 0x76) := .launch 0 _

/-- The first Step of an image of HALTs: a reachable state that is halted. -/
theorem witness_ReachableStatesMeetInvariant_halted : ∃ s, Reachable s ∧ s.halted = true := by
  refine ⟨_, .step (.launch 0 fun _ => 0x76) (step_eq_next.mpr ⟨.halt, selectInstr_eq_ok.mpr ⟨?_, ?_, ?_⟩, rfl⟩), ?_⟩
  · simp
  · rw [fetchOpcode, fetchPrefixed_eq_false (by rw [memRead_launch]; decide), if_neg Bool.false_ne_true, fetchByte,
      memRead_launch]
    rfl
  · exact fun _ => rfl
  · exact congrArg State.halted (run_halt _)

theorem witness_VdecIsInvisibleToCpu : (∃ t, step State.reset = .next t) ∧
    step (code [0xD3]) = .fault (.decodeFailure [0xD3] false 0x0100) := ⟨⟨_, rfl⟩, rfl⟩

end Sys2Proof.Tests
end

section
/-! PROOFS of the family 10_state.md, first layer. Frame and read-after-write rules that the laws above do not state: the
register pairs, the flags' byte, the stack operations, the pixels of the VDEC, and what a run of memory writes keeps. -/

namespace Sys2Proof.Machine

/-! ### Bytes of a word -/

/-- A word is determined by its two bytes. -/
theorem word_ext {v w : Word} (hhi : hiByte v = hiByte w) (hlo : loByte v = loByte w) : v = w := by
  rw [← joinBytes_hi_lo v, hhi, hlo, joinBytes_hi_lo]

@[simp] theorem hiByte_and (v w : Word) : hiByte (v &&& w) = hiByte v &&& hiByte w := by
  simp [hiByte_eq_shift, BitVec.ushiftRight_and_distrib]

@[simp] theorem loByte_and (v w : Word) : loByte (v &&& w) = loByte v &&& loByte w := by
  simp [loByte_eq_setWidth]

/-! ### The flags' byte (R13) -/

/-- The encoding as the sum of the flags' weights. -/
theorem encodeFlags_eq_sum (f : Flags) :
    encodeFlags f = (if f.z then 0x80 else 0) + (if f.n then 0x40 else 0) + (if f.h then 0x20 else 0) +
      (if f.c then 0x10 else 0) := by
  obtain ⟨z, n, h, c⟩ := f
  revert z n h c
  decide

/-- Decoding loses nothing of an encoded flags value. -/
@[simp] theorem decodeFlags_encodeFlags (f : Flags) : decodeFlags (encodeFlags f) = f := by
  obtain ⟨z, n, h, c⟩ := f
  revert z n h c
  decide

/-- Encoding a decoded byte keeps its high nibble and clears the low one. -/
@[simp] theorem encodeFlags_decodeFlags (v : Byte) : encodeFlags (decodeFlags v) = v &&& 0xF0 := by
  revert v
  decide

/-- The low nibble of an encoded flags value is zero (R15). -/
theorem encodeFlags_and_low (f : Flags) : encodeFlags f &&& 0x0F = 0 := by
  obtain ⟨z, n, h, c⟩ := f
  revert z n h c
  decide

/-! ### Registers and pairs (R10, R14) -/

/-- A register read depends on the data registers alone. -/
theorem readReg_congr {s t : State} (h : s.regs = t.regs) (q : Reg8) : readReg q s = readReg q t := by
  unfold readReg
  rw [h]

@[simp] theorem readReg_resetWith (q : Reg8) (sp : Word) : readReg q (State.resetWith sp) = 0 := by
  cases q <;> rfl

/-- A register write changes the data registers only. -/
theorem writeReg_frame (r : Reg8) (v : Byte) (s : State) :
    writeReg r v s = { s with regs := (writeReg r v s).regs } := by
  cases r <;> rfl

/-- A pair write leaves the registers the pair does not hold. -/
theorem readReg_writePair_of_not_has {p : Pair} {q : Reg8} (h : pairHas p q = false) (v : Word) (s : State) :
    readReg q (writePair p v s) = readReg q s := by
  cases p <;> cases q <;> simp [pairHas, readReg, writePair] at h ⊢

/-- Only AF holds the flags. -/
theorem writePair_flags {p : Pair} (h : p ≠ .af) (v : Word) (s : State) : (writePair p v s).flags = s.flags := by
  cases p with
  | af => exact absurd rfl h
  | bc | de | hl => rfl

/-- Reading back a pair of two data registers. -/
theorem readPair_writePair {p : Pair} (h : p ≠ .af) (v : Word) (s : State) : readPair p (writePair p v s) = v := by
  cases p with
  | af => exact absurd rfl h
  | bc | de | hl => exact joinBytes_hi_lo v

/-- Reading back AF loses the low nibble. -/
theorem readPair_writePair_af (v : Word) (s : State) : readPair .af (writePair .af v s) = v &&& 0xFFF0 := by
  have hhi : hiByte 0xFFF0 = BitVec.allOnes 8 := by decide
  have hlo : loByte 0xFFF0 = 0xF0 := by decide
  have hread : readPair .af (writePair .af v s) = joinBytes (hiByte v) (encodeFlags (decodeFlags (loByte v))) := rfl
  apply word_ext
  · rw [hread, hiByte_joinBytes, hiByte_and, hhi, BitVec.and_allOnes]
  · rw [hread, loByte_joinBytes, loByte_and, hlo, encodeFlags_decodeFlags]

/-! ### The stack operations (R180, R181) -/

section
variable (v : Word) (s : State)

@[simp] theorem push16_regs : (push16 v s).regs = s.regs := rfl
@[simp] theorem push16_flags : (push16 v s).flags = s.flags := rfl
@[simp] theorem push16_halted : (push16 v s).halted = s.halted := rfl
@[simp] theorem push16_sp : (push16 v s).sp = s.sp - 2 := (push16_spec v s).2.2.2.1

@[simp] theorem pop16_regs : (pop16 s).2.regs = s.regs := rfl
@[simp] theorem pop16_flags : (pop16 s).2.flags = s.flags := rfl
@[simp] theorem pop16_halted : (pop16 s).2.halted = s.halted := rfl
@[simp] theorem pop16_sp : (pop16 s).2.sp = s.sp + 2 := congrArg (fun r => r.2.sp) (pop16_spec s)

@[simp] theorem readReg_push16 (q : Reg8) : readReg q (push16 v s) = readReg q s := rfl
@[simp] theorem readReg_pop16 (q : Reg8) : readReg q (pop16 s).2 = readReg q s := rfl
end

/-! ### The VDEC's pixels (R204 to R207) -/

/-- The blank VDEC's pixels are 0 (R26). -/
@[simp] theorem Vdec.pixel_blank (t : Fin Config.nTiles) (row col : Fin 8) : (Vdec.mk [] []).pixel t row col = 0 := by
  simp [Vdec.pixel]

/-- Every pixel after a write of the VDEC: those of the row that the byte belongs to, inside the tile-data sub-region, are
the function of the row's two bytes as the buffer now holds them; every other pixel stays. -/
theorem Vdec.pixel_write (o : Offset) (v : Byte) (d : Vdec) (t : Fin Config.nTiles) (row col : Fin 8) :
    (d.write o v).pixel t row col =
      if o.val < Config.tileDataSize ∧ t.val = o.val / Config.tileBytes ∧ row.val = o.val % Config.tileBytes / 2 then
        pixelFrom ((d.write o v).read (rowByte1 t row)) ((d.write o v).read (rowByte2 t row)) col
      else d.pixel t row col := by
  have hrow : rowKey t.val row.val = o.val / 2 ↔
      t.val = o.val / Config.tileBytes ∧ row.val = o.val % Config.tileBytes / 2 := by
    simp only [rowKey, Config.tileBytes]
    omega
  simp only [Vdec.pixel, Vdec.write_rows, hrow]
  split
  · rename_i h
    have hbase : 2 * (o.val / 2) = (rowByte1 t row).val := by
      simp only [rowByte1, ← hrow.mpr h.2, rowKey]
      omega
    rw [decodeRow_getElem, hbase]
    rfl
  · rfl

/-- A write of the VDEC keeps INV-TILE (R23, R211): it touches the two bytes of no row but the one it decodes anew. -/
theorem Vdec.write_tileInv {d : Vdec} (h : VdecTileInv d) (o : Offset) (v : Byte) : VdecTileInv (d.write o v) := by
  intro t row col
  rw [Vdec.pixel_write]
  split
  · rfl
  · rename_i hout
    have hlt := t.isLt
    simp only [Config.tileDataSize, Config.tileBytes, Config.nTiles] at hout hlt
    have h1 : rowByte1 t row ≠ o := fun e => hout (by simp only [← e, rowByte1]; omega)
    have h2 : rowByte2 t row ≠ o := fun e => hout (by simp only [← e, rowByte2]; omega)
    rw [Vdec.read_write, if_neg h1, Vdec.read_write, if_neg h2, h t row col]

/-- The forward of any CPU write keeps INV-TILE. -/
theorem Vdec.forward_tileInv {d : Vdec} (h : VdecTileInv d) (a : Word) (v : Byte) : VdecTileInv (d.forward a v) := by
  unfold Vdec.forward
  split
  · exact Vdec.write_tileInv h _ v
  · exact h

/-! ### What memory writes keep -/

/-- INV-MIRROR (R23) as a relation between the two stores. -/
def MirrorOf (m : Memory) (d : Vdec) : Prop := ∀ o : Offset, d.read o = Cells.read 0 m (windowAddr o).toNat

theorem mirrorInv_iff (s : State) : MirrorInv s ↔ MirrorOf s.mem s.vdec := Iff.rfl

/-- A memory write keeps INV-MIRROR: the store and the forward change the same byte (R45). -/
theorem memWrite_mirror {s : State} (h : MirrorInv s) (a : Word) (v : Byte) : MirrorInv (memWrite a v s) := by
  intro o
  rw [State.vramRead, memWrite_vdec, Vdec.forward_read, memRead_memWrite]
  split
  · rfl
  · exact h o

/-- What every memory write keeps, a load of any image at any list of addresses keeps. -/
theorem foldl_memWrite_keeps (P : State → Prop) (hP : ∀ s a v, P s → P (memWrite a v s)) (image : Word → Byte)
    (as : List Word) {s : State} (h : P s) : P (as.foldl (fun t a => memWrite a (image a) t) s) := by
  induction as generalizing s with
  | nil => exact h
  | cons a as ih => exact ih (hP s a _ h)

/-- Reset meets INV-MIRROR: both stores are zero. -/
theorem resetWith_mirror (sp : Word) : MirrorInv (State.resetWith sp) := fun _ => rfl

/-- Reset meets INV-TILE: a row of two zero bytes is blank. -/
theorem resetWith_tile (sp : Word) : TileInv (State.resetWith sp) := by
  intro t row col
  rw [resetWith_vdec, Vdec.pixel_blank]
  exact (pixelFrom_zero col).symm

end Sys2Proof.Machine
end

section
/-! PROOFS of the family 10_state.md, second layer. What the operation of each kind of instruction does to one part of the
state, and what a Step keeps. -/

namespace Sys2Proof.Machine

/-- exec's next state is the operation of the instruction's kind. -/
theorem exec_eq_next {i : Instr} {s t : State} : exec i s = .next t ↔ t = Kind.run i.kind s := by
  rw [exec_eq_run, Host.Outcome.next.injEq]
  exact eq_comm

/-- POP AF is the one instruction of its kind. -/
theorem kind_eq_pop_af {i : Instr} : i.kind = .pop .af ↔ i = .popAF := by
  cases i <;> simp [Instr.kind]

/-! ### Decoding and selection -/

/-- A looked-up instruction has a row for the byte. -/
theorem mem_of_lookupOpcode {rows : List (Byte × Instr)} {op : Byte} {i : Instr} (h : lookupOpcode rows op = some i) :
    (op, i) ∈ rows := by
  induction rows with
  | nil => cases h
  | cons r rows ih =>
    rw [lookupOpcode] at h
    split at h
    · rename_i e
      cases h
      exact e ▸ List.mem_cons_self
    · exact List.mem_cons_of_mem _ (ih h)

/-- Every row of R80's table has the opcode assembled from the bit fields of its instruction. -/
theorem opcodeTable_opcode : ∀ r ∈ opcodeTable, r.1 = r.2.opcode := by decide

/-- A byte that decodes to an instruction is the instruction's opcode. -/
theorem opcode_of_decodeOpcode {op : Byte} {i : Instr} (h : decodeOpcode op false = some i) : op = i.opcode :=
  opcodeTable_opcode (op, i) (mem_of_lookupOpcode h)

/-- A running machine whose byte at `pc` decodes selects that instruction, unless it is halted on another than HALT. -/
theorem selectInstr_of_decodeOpcode {s : State} {i : Instr} (hrun : s.status = .running)
    (hdec : decodeOpcode (memRead s.pc s) false = some i) (hhalt : s.halted = true → i = .halt) :
    selectInstr s = .ok i := by
  have hp : fetchPrefixed s = false :=
    fetchPrefixed_eq_false (opcode_of_decodeOpcode hdec ▸ (Laws.OpcodeAgrees.all i).2.1)
  refine selectInstr_eq_ok.mpr ⟨hrun, ?_, hhalt⟩
  rwa [fetchOpcode, hp]

/-! ### Who writes what -/

/-- What an operation does before the write-back of `pc`: everything but `pc`. -/
def Kind.effect (k : Kind) (s : State) : State :=
  match k with
  | .nop => s
  | .halt => { s with halted := true }
  | .add r => writeReg .a (add8 (readReg .a s) (readReg r s)).1 { s with flags := (add8 (readReg .a s) (readReg r s)).2 }
  | .ld dst src => writeDst dst (readSrc src s) s
  | .jp _ => s
  | .call c => if condHolds c s.flags then push16 (s.pc + 3) s else s
  | .ret c => if condHolds c s.flags then (pop16 s).2 else s
  | .push p => push16 (readPair p s) s
  | .pop p => writePair p (pop16 s).1 (pop16 s).2

/-- Every operation is its effect, then the write-back of some `pc` (R104, R105). -/
theorem run_eq_writeBack (k : Kind) (s : State) : ∃ next, Kind.run k s = writeBack next (Kind.effect k s) := by
  cases k with
  | nop | add _ | ld _ _ | push _ | pop _ => exact ⟨_, rfl⟩
  | halt => exact ⟨s.pc + 1, rfl⟩
  | jp c | call c | ret c =>
    simp only [Kind.run, jump, callSub, returnSub, Kind.effect]
    split <;> exact ⟨_, rfl⟩

section
variable (k : Kind) (s : State)

theorem run_readReg (q : Reg8) : readReg q (Kind.run k s) = readReg q (Kind.effect k s) := by
  obtain ⟨next, h⟩ := run_eq_writeBack k s
  rw [h, readReg_writeBack]

theorem run_flags : (Kind.run k s).flags = (Kind.effect k s).flags := by
  obtain ⟨next, h⟩ := run_eq_writeBack k s
  rw [h, writeBack_flags]

theorem run_sp : (Kind.run k s).sp = (Kind.effect k s).sp := by
  obtain ⟨next, h⟩ := run_eq_writeBack k s
  rw [h, writeBack_sp]

theorem run_halted : (Kind.run k s).halted = (Kind.effect k s).halted := by
  obtain ⟨next, h⟩ := run_eq_writeBack k s
  rw [h, writeBack_halted]
end

/-- A data register is changed by ADD, a load to it or a POP of a pair that holds it only (R11). -/
theorem run_readReg_ne {k : Kind} {s : State} {q : Reg8} (h : readReg q (Kind.run k s) ≠ readReg q s) :
    (q = .a ∧ ∃ r, k = .add r) ∨ (∃ src, k = .ld (.reg q) src) ∨ ∃ p, k = .pop p ∧ pairHas p q = true := by
  rw [run_readReg] at h
  cases k with
  | nop | halt | jp _ | push _ => exact absurd rfl h
  | add r =>
    by_cases hq : q = .a
    · exact .inl ⟨hq, r, rfl⟩
    · rw [Kind.effect, readReg_writeReg, if_neg hq] at h
      exact absurd rfl h
  | ld dst src =>
    cases dst with
    | atHL => exact absurd rfl h
    | reg r =>
      by_cases hq : q = r
      · exact .inr (.inl ⟨src, hq ▸ rfl⟩)
      · rw [Kind.effect, writeDst, readReg_writeReg, if_neg hq] at h
        exact absurd rfl h
  | call c | ret c =>
    simp only [Kind.effect] at h
    split at h <;> exact absurd rfl h
  | pop p =>
    cases hq : pairHas p q with
    | true => exact .inr (.inr ⟨p, rfl, hq⟩)
    | false =>
      rw [Kind.effect, readReg_writePair_of_not_has hq] at h
      exact absurd rfl h

/-- The flags are changed by ADD and POP AF only (R12). -/
theorem run_flags_ne {k : Kind} {s : State} (h : (Kind.run k s).flags ≠ s.flags) :
    (∃ r, k = .add r) ∨ k = .pop .af := by
  rw [run_flags] at h
  cases k with
  | nop | halt | jp _ | push _ => exact absurd rfl h
  | add r => exact .inl ⟨r, rfl⟩
  | ld dst src => cases dst <;> simp [Kind.effect, writeDst] at h
  | call c | ret c =>
    simp only [Kind.effect] at h
    split at h <;> exact absurd rfl h
  | pop p =>
    by_cases hp : p = .af
    · exact .inr (hp ▸ rfl)
    · rw [Kind.effect, writePair_flags hp] at h
      exact absurd rfl h

/-- `sp` after an operation (R17). -/
theorem run_sp_cases (k : Kind) (s : State) :
    (Kind.run k s).sp = s.sp ∨
    ((Kind.run k s).sp = s.sp - 2 ∧ ((∃ p, k = .push p) ∨ ∃ c, k = .call c ∧ condHolds c s.flags = true)) ∨
    ((Kind.run k s).sp = s.sp + 2 ∧ ((∃ p, k = .pop p) ∨ ∃ c, k = .ret c ∧ condHolds c s.flags = true)) := by
  rw [run_sp]
  cases k with
  | nop | halt | add _ | jp _ => exact .inl rfl
  | ld dst src => cases dst <;> simp [Kind.effect, writeDst]
  | call c => by_cases hc : condHolds c s.flags <;> simp [Kind.effect, hc]
  | ret c => by_cases hc : condHolds c s.flags <;> simp [Kind.effect, hc]
  | push p => exact .inr (.inl ⟨push16_sp _ s, .inl ⟨p, rfl⟩⟩)
  | pop p => exact .inr (.inr ⟨by rw [Kind.effect, writePair_sp, pop16_sp], .inl ⟨p, rfl⟩⟩)

/-- A machine is halted after an operation exactly when it was before or the operation is HALT's (R18). -/
theorem run_halted_iff {k : Kind} {s : State} : (Kind.run k s).halted = true ↔ s.halted = true ∨ k = .halt := by
  rw [run_halted]
  cases k with
  | halt => exact iff_of_true rfl (.inr rfl)
  | nop | add _ | jp _ | push _ => simp [Kind.effect]
  | ld dst src => cases dst <;> simp [Kind.effect, writeDst]
  | call c | ret c =>
    simp only [Kind.effect]
    split <;> simp
  | pop p => simp [Kind.effect]

/-! ### What a Step keeps -/

/-- What every memory write keeps of the stores, every Step keeps. -/
theorem step_keeps (P : Memory → Vdec → Prop)
    (hP : ∀ s a v, P s.mem s.vdec → P (memWrite a v s).mem (memWrite a v s).vdec) {s t : State}
    (hstep : step s = .next t) (h : P s.mem s.vdec) : P t.mem t.vdec := by
  obtain ⟨i, -, rfl⟩ := step_eq_next.mp hstep
  exact run_keeps P hP i.kind s h

theorem step_canonical {s t : State} (hstep : step s = .next t) (h : CanonicalInv s) : CanonicalInv t :=
  step_keeps (fun m d => m.wf ∧ d.wf) (fun s a v (hs : CanonicalInv s) => memWrite_canonical hs a v) hstep h

theorem step_mirror {s t : State} (hstep : step s = .next t) (h : MirrorInv s) : MirrorInv t :=
  step_keeps MirrorOf (fun s a v hs => memWrite_mirror ((mirrorInv_iff s).mpr hs) a v) hstep h

theorem step_tile {s t : State} (hstep : step s = .next t) (h : TileInv s) : TileInv t :=
  step_keeps (fun _ d => VdecTileInv d) (fun _ a v hs => Vdec.forward_tileInv hs a v) hstep h

theorem step_status {s t : State} (hstep : step s = .next t) : t.status = s.status := by
  obtain ⟨i, -, rfl⟩ := step_eq_next.mp hstep
  exact run_status i.kind s

/-- A halted machine that takes a Step executes HALT again, with no effect (R106). -/
theorem eq_of_step_of_halted {s t : State} (hstep : step s = .next t) (hh : s.halted = true) : t = s := by
  obtain ⟨i, hsel, rfl⟩ := step_eq_next.mp hstep
  obtain ⟨-, -, hi⟩ := selectInstr_eq_ok.mp hsel
  rw [hi hh, Instr.kind, run_halt, ← hh]

/-- The Step that halts a running machine executes HALT at `pc`, and leaves memory and `pc` (R105, R121). -/
theorem step_halt {s t : State} (hstep : step s = .next t) (hs : s.halted = false) (ht : t.halted = true) :
    memRead s.pc s = Instr.opcode .halt ∧ t = { s with halted := true } := by
  obtain ⟨i, hsel, rfl⟩ := step_eq_next.mp hstep
  obtain rfl : i = .halt := kind_eq_halt.mp ((run_halted_iff.mp ht).resolve_left (by simp [hs]))
  exact ⟨opcode_of_decodeOpcode (selectInstr_opcode hsel).2, run_halt s⟩

/-- Every Step keeps `halted implies mem[pc] = 0x76` (R106). -/
theorem step_haltInv {s t : State} (hstep : step s = .next t) (h : HaltInv s) : HaltInv t := by
  intro ht
  cases hs : s.halted with
  | true => rw [eq_of_step_of_halted hstep hs, h hs]
  | false =>
    obtain ⟨hbyte, rfl⟩ := step_halt hstep hs ht
    exact hbyte

/-- A running machine that is halted on a HALT steps to itself (R106). -/
theorem step_self_of_halted {s : State} (hrun : s.status = .running) (h : HaltInv s) (hh : s.halted = true) :
    step s = .next s := by
  have hsel : selectInstr s = .ok .halt := selectInstr_of_decodeOpcode hrun (by rw [h hh]; decide) fun _ => rfl
  have hstep : step s = .next (Kind.run .halt s) := step_eq_next.mpr ⟨.halt, hsel, rfl⟩
  rwa [eq_of_step_of_halted hstep hh] at hstep

/-! ### The invariant along a run -/

theorem resetWith_inv (sp : Word) : Inv (State.resetWith sp) where
  canonical := resetWith_canonical sp
  mirror := resetWith_mirror sp
  tile := resetWith_tile sp
  halt := nofun
  running := rfl

/-- A memory write of a machine that is not halted keeps the invariant. -/
theorem memWrite_inv {s : State} (h : Inv s ∧ s.halted = false) (a : Word) (v : Byte) :
    Inv (memWrite a v s) ∧ (memWrite a v s).halted = false := by
  obtain ⟨⟨hcan, hmir, htile, -, hrun⟩, hh⟩ := h
  exact ⟨⟨memWrite_canonical hcan a v, memWrite_mirror hmir a v, Vdec.forward_tileInv htile a v,
    fun e => absurd (hh.symm.trans e) Bool.false_ne_true, hrun⟩, hh⟩

/-- Every launch state meets the invariant, whatever SP_RESET and image (R264). -/
theorem launch_inv (sp : Word) (image : Word → Byte) : Inv (State.launch sp image) :=
  (foldl_memWrite_keeps (fun s => Inv s ∧ s.halted = false) (fun _ a v h => memWrite_inv h a v) image allAddresses
    ⟨resetWith_inv sp, rfl⟩).1

theorem step_inv {s t : State} (hstep : step s = .next t) (h : Inv s) : Inv t where
  canonical := step_canonical hstep h.canonical
  mirror := step_mirror hstep h.mirror
  tile := step_tile hstep h.tile
  halt := step_haltInv hstep h.halt
  running := (step_status hstep).trans h.running

theorem inv_of_reachable {s : State} (h : Reachable s) : Inv s := by
  induction h with
  | launch sp image => exact launch_inv sp image
  | step _ hstep ih => exact step_inv hstep ih

end Sys2Proof.Machine
end

section
/-! PROOFS of the family 10_state.md: its statements, assembled from the two layers above. -/

namespace Sys2Proof.Machine

/-- Settles O56: memory and the VDEC change through `memWrite` alone, which keeps the canonical forms. -/
theorem stepKeepsCanonicalStores : Obligations.StepKeepsCanonicalStores :=
  fun _ _ h hstep => step_canonical hstep h

/-- Settles O57: the store and its forward change the same byte, and the forward decodes anew the one row whose bytes it
changes. -/
theorem stepKeepsVideoInvariants : Obligations.StepKeepsVideoInvariants :=
  fun _ _ hstep => ⟨step_mirror hstep, step_tile hstep⟩

/-- Settles O39, by the shift form of joining and splitting a word. -/
theorem pairsAreViews : Obligations.PairsAreViews := by
  intro s v
  rw [← hiByte_eq_shift, ← loByte_eq_setWidth]
  exact ⟨joinBytes_eq_shift _ _, joinBytes_eq_shift _ _, joinBytes_eq_shift _ _, joinBytes_eq_shift _ _,
    rfl, rfl, rfl, rfl, fun _ hp => readPair_writePair hp v s, readPair_writePair_af v s⟩

/-- Settles O41, by cases on the instruction's kind. -/
theorem registerWriters : Obligations.RegisterWriters := by
  intro i s t q hexec hne
  obtain rfl := exec_eq_next.mp hexec
  exact run_readReg_ne hne

/-- Settles O42, by cases on the instruction's kind. -/
theorem flagWriters : Obligations.FlagWriters := by
  intro i s t hexec hne
  obtain rfl := exec_eq_next.mp hexec
  exact (run_flags_ne hne).imp_right kind_eq_pop_af.mp

/-- Settles O43, by cases on the instruction's kind. -/
theorem stackPointerWriters : Obligations.StackPointerWriters := by
  intro i s t hexec
  obtain rfl := exec_eq_next.mp hexec
  exact run_sp_cases i.kind s

/-- Settles O45: HALT alone writes `halted`, and a halted machine's Step is the identity. -/
theorem haltedIsForever : Obligations.HaltedIsForever := by
  refine ⟨resetWith_halted, fun s => ⟨_, exec_eq_next.mpr rfl, run_halted_iff.mpr (.inr rfl)⟩,
    fun i s t hexec ht => ?_, fun s t hstep hh => ?_⟩
  · obtain rfl := exec_eq_next.mp hexec
    exact (run_halted_iff.mp ht).imp_right kind_eq_halt.mp
  · obtain rfl := eq_of_step_of_halted hstep hh
    exact ⟨hh, rfl⟩

/-- Settles O59, by induction on the run: launch meets the invariant and every Step keeps it. -/
theorem reachableStatesMeetInvariant : Obligations.ReachableStatesMeetInvariant := by
  intro s hs
  have hinv := inv_of_reachable hs
  exact ⟨hinv, step_self_of_halted hinv.running hinv.halt⟩

/-- Settles O38, by the read-after-write rule and the frame of a register write. -/
theorem registerCellsAreIndependent : Obligations.RegisterCellsAreIndependent :=
  fun r q v s => ⟨readReg_writeReg r q v s, writeReg_frame r v s⟩

/-- Settles O40: the flags' round trips, and AF's low byte is an encoded flags value. -/
theorem flagsByte : Obligations.FlagsByte := by
  refine ⟨fun f => ⟨decodeFlags_encodeFlags f, encodeFlags_eq_sum f⟩, encodeFlags_decodeFlags, fun s => ?_⟩
  have hhi : hiByte 0x000F = 0 := by decide
  have hlo : loByte 0x000F = 0x0F := by decide
  apply word_ext
  · rw [hiByte_and, hhi]
    exact BitVec.and_zero
  · rw [loByte_and, hlo, readPair, loByte_joinBytes, encodeFlags_and_low]
    rfl

/-- Settles O52, field by field. -/
theorem resetValues : Obligations.ResetValues :=
  fun sp => ⟨fun r => readReg_resetWith r sp, (by decide : encodeFlags ⟨false, false, false, false⟩ = 0), rfl, rfl, rfl,
    rfl, fun a => memRead_resetWith a sp, fun _ => rfl, Vdec.pixel_blank, rfl⟩

/-- Settles O55: all stores are empty, so their reads are 0 and both video equations hold. -/
theorem resetMeetsInvariant : Obligations.ResetMeetsInvariant := resetWith_inv

end Sys2Proof.Machine
end

section
/-! PROOFS of the family 20_memory.md, first layer. Bytes under the stack operations, the addresses that reach the VDEC,
and what replacing the VDEC's state leaves of every operation. -/

namespace Sys2Proof.Machine

/-! ### Bytes under the stack operations (R180, R181) -/

/-- Every byte after a push. -/
theorem memRead_push16 (a v : Word) (s : State) :
    memRead a (push16 v s) =
      if a = s.sp - 1 then hiByte v else if a = s.sp - 2 then loByte v else memRead a s := by
  obtain ⟨-, -, -, -, -, -, hmem, -⟩ := push16_spec v s
  exact hmem a

/-- A push changes no byte but the two below `sp`. -/
theorem eq_of_memRead_push16_ne {a v : Word} {s : State} (h : memRead a (push16 v s) ≠ memRead a s) :
    a = s.sp - 1 ∨ a = s.sp - 2 := by
  by_contra hout
  obtain ⟨h1, h2⟩ := not_or.mp hout
  rw [memRead_push16, if_neg h1, if_neg h2] at h
  exact h rfl

@[simp] theorem memRead_pop16 (a : Word) (s : State) : memRead a (pop16 s).2 = memRead a s := rfl

/-! ### Which addresses reach the VDEC (R45, R210) -/

/-- The forward of a write inside the window. -/
@[simp] theorem Vdec.forward_windowAddr (o : Offset) (v : Byte) (d : Vdec) :
    d.forward (windowAddr o) v = d.write o v := by
  rw [Vdec.forward, windowOffset_windowAddr]

/-- An address that is no offset's address is not forwarded. -/
theorem Vdec.forward_of_ne_windowAddr {a : Word} (h : ∀ o, a ≠ windowAddr o) (v : Byte) (d : Vdec) :
    d.forward a v = d := by
  have hnone : windowOffset a = none :=
    Option.eq_none_iff_forall_ne_some.mpr fun o ho => h o ((windowOffset_eq_some a o).mp ho)
  rw [Vdec.forward, hnone]

/-- An offset's address, by its number. -/
theorem eq_windowAddr_iff {a : Word} {o : Offset} : a = windowAddr o ↔ a.toNat = 0x8000 + o.val := by
  rw [← BitVec.toNat_inj, toNat_windowAddr]

/-! ### Replacing the VDEC's state -/

/-- The machine with another VDEC state in place of its own. -/
def State.setVdec (d : Vdec) (s : State) : State := { s with vdec := d }

section
variable (d : Vdec) (s : State)

@[simp] theorem setVdec_flags : (s.setVdec d).flags = s.flags := rfl
@[simp] theorem setVdec_pc : (s.setVdec d).pc = s.pc := rfl

/-- Fetch, decode and the checks before execute do not read the VDEC. -/
@[simp] theorem selectInstr_setVdec : selectInstr (s.setVdec d) = selectInstr s := rfl

@[simp] theorem readSrc_setVdec (src : Src8) : readSrc src (s.setVdec d) = readSrc src s := rfl
@[simp] theorem readPair_setVdec (p : Pair) : readPair p (s.setVdec d) = readPair p s := rfl
@[simp] theorem addrHL_setVdec : addrHL (s.setVdec d) = addrHL s := rfl
@[simp] theorem readOperandWord_setVdec : readOperandWord (s.setVdec d) = readOperandWord s := rfl

@[simp] theorem memWrite_setVdec (a : Word) (v : Byte) :
    memWrite a v (s.setVdec d) = (memWrite a v s).setVdec (d.forward a v) := rfl

@[simp] theorem pop16_setVdec : pop16 (s.setVdec d) = ((pop16 s).1, (pop16 s).2.setVdec d) := rfl

@[simp] theorem writeReg_setVdec (r : Reg8) (v : Byte) :
    writeReg r v (s.setVdec d) = (writeReg r v s).setVdec d := by
  cases r <;> rfl

@[simp] theorem writePair_setVdec (p : Pair) (v : Word) :
    writePair p v (s.setVdec d) = (writePair p v s).setVdec d := by
  cases p <;> rfl

@[simp] theorem writeBack_setVdec (a : Word) : writeBack a (s.setVdec d) = (writeBack a s).setVdec d := by
  unfold writeBack
  rw [apply_ite (State.setVdec d)]
  rfl

/-- A push reads no VDEC; it forwards its two bytes to the one that is there. -/
theorem push16_setVdec (v : Word) : ∃ d', push16 v (s.setVdec d) = (push16 v s).setVdec d' := ⟨_, rfl⟩

/-- No operation reads the VDEC: with another one in its place, an operation answers the same but for the VDEC (R44,
R208). -/
theorem run_setVdec (k : Kind) : ∃ d', Kind.run k (s.setVdec d) = (Kind.run k s).setVdec d' := by
  cases k with
  | nop => exact ⟨d, writeBack_setVdec d s _⟩
  | halt => exact ⟨d, writeBack_setVdec d { s with halted := true } (s.pc + 1)⟩
  | add r => exact ⟨d, writeBack_setVdec d (Kind.effect (.add r) s) _⟩
  | ld dst src =>
    simp only [Kind.run, loadByte, readSrc_setVdec, setVdec_pc]
    cases dst with
    | reg r =>
      simp only [writeDst, writeReg_setVdec, writeBack_setVdec]
      exact ⟨d, rfl⟩
    | atHL =>
      simp only [writeDst, addrHL_setVdec, memWrite_setVdec, writeBack_setVdec]
      exact ⟨_, rfl⟩
  | jp c =>
    simp only [Kind.run, jump, setVdec_flags, setVdec_pc, readOperandWord_setVdec, writeBack_setVdec]
    split <;> exact ⟨d, rfl⟩
  | call c =>
    obtain ⟨d', hpush⟩ := push16_setVdec d s (s.pc + 3)
    simp only [Kind.run, callSub, setVdec_flags, setVdec_pc, hpush, readOperandWord_setVdec, writeBack_setVdec]
    split <;> exact ⟨_, rfl⟩
  | ret c =>
    simp only [Kind.run, returnSub, setVdec_flags, setVdec_pc, pop16_setVdec, writeBack_setVdec]
    split <;> exact ⟨d, rfl⟩
  | push p =>
    obtain ⟨d', hpush⟩ := push16_setVdec d s (readPair p s)
    simp only [Kind.run, pushPair, readPair_setVdec, setVdec_pc, hpush, writeBack_setVdec]
    exact ⟨d', rfl⟩
  | pop p =>
    simp only [Kind.run, popPair, setVdec_pc, pop16_setVdec, writePair_setVdec, writeBack_setVdec]
    exact ⟨d, rfl⟩
end

end Sys2Proof.Machine
end

section
/-! PROOFS of the family 20_memory.md, second layer: which operations write memory, and which instruction a Step
executes. -/

namespace Sys2Proof.Machine

theorem run_memRead (k : Kind) (s : State) (a : Word) : memRead a (Kind.run k s) = memRead a (Kind.effect k s) := by
  obtain ⟨next, h⟩ := run_eq_writeBack k s
  rw [h, memRead_writeBack]

/-- A byte is changed by a load to (HL), at HL, and by PUSH or a taken CALL, at the two bytes below `sp`, only (R42). -/
theorem run_memRead_ne {k : Kind} {s : State} {a : Word} (h : memRead a (Kind.run k s) ≠ memRead a s) :
    ((∃ src, k = .ld .atHL src) ∧ a = addrHL s) ∨
    (((∃ p, k = .push p) ∨ ∃ c, k = .call c ∧ condHolds c s.flags = true) ∧ (a = s.sp - 1 ∨ a = s.sp - 2)) := by
  rw [run_memRead] at h
  cases k with
  | nop | halt | jp _ => exact absurd rfl h
  | add r => exact absurd (memRead_writeReg ..) h
  | ld dst src =>
    cases dst with
    | reg r => exact absurd (memRead_writeReg ..) h
    | atHL =>
      refine .inl ⟨⟨src, rfl⟩, by_contra fun ha => h ?_⟩
      rw [Kind.effect, writeDst, memRead_memWrite, if_neg ha]
  | call c =>
    simp only [Kind.effect] at h
    split at h
    · rename_i hc
      exact .inr ⟨.inr ⟨c, rfl, hc⟩, eq_of_memRead_push16_ne h⟩
    · exact absurd rfl h
  | ret c =>
    simp only [Kind.effect] at h
    split at h <;> exact absurd rfl h
  | push p => exact .inr ⟨.inl ⟨p, rfl⟩, eq_of_memRead_push16_ne h⟩
  | pop p => exact absurd (memRead_writePair ..) h

/-- LD (HL),r of a machine that is not halted (R143). -/
theorem run_ld_atHL_reg {s : State} (hh : s.halted = false) (r : Reg8) :
    Kind.run (.ld .atHL (.reg r)) s = { memWrite (addrHL s) (readReg r s) s with pc := s.pc + 1 } :=
  writeBack_running (s := memWrite (addrHL s) (readReg r s) s) _ hh

/-- A Step is exec of the selected instruction. -/
theorem step_eq_exec {s : State} {i : Instr} (h : selectInstr s = .ok i) : step s = exec i s := by
  rw [step, h]

end Sys2Proof.Machine
end

section
/-! PROOFS of the family 20_memory.md: its statements, assembled from the two layers above. -/

namespace Sys2Proof.Machine

/-- Settles O60: neither the selection of the instruction nor its operation reads the VDEC. -/
theorem vdecIsInvisibleToCpu : Obligations.VdecIsInvisibleToCpu := by
  intro s d
  have hsel : selectInstr (s.setVdec d) = selectInstr s := selectInstr_setVdec d s
  constructor
  · intro t hstep
    obtain ⟨i, hi, rfl⟩ := step_eq_next.mp hstep
    obtain ⟨d', hrun⟩ := run_setVdec d s i.kind
    exact ⟨d', step_eq_next.mpr ⟨i, hsel.trans hi, hrun.symm⟩⟩
  · intro f hstep
    exact step_eq_fault.mpr (hsel.trans (step_eq_fault.mp hstep))

/-- Settles O44, by cases on the instruction's kind. -/
theorem memoryWriters : Obligations.MemoryWriters := by
  intro i s t a hexec hne
  obtain rfl := exec_eq_next.mp hexec
  exact run_memRead_ne hne

/-- Settles O48: the store leaves `pc` at HL, where the fetch reads the stored byte. -/
theorem storeIsSeenByNextFetch : Obligations.StoreIsSeenByNextFetch := by
  intro i j r s t hkind hrun hh hHL hdec hexec
  obtain rfl := exec_eq_next.mp hexec
  rw [hkind, run_ld_atHL_reg hh, hHL]
  have hbyte : memRead (s.pc + 1) (memWrite (s.pc + 1) (readReg r s) s) = readReg r s := by simp
  refine step_eq_exec (selectInstr_of_decodeOpcode hrun ?_ fun e => absurd (hh.symm.trans e) Bool.false_ne_true)
  exact (congrArg (decodeOpcode · false) hbyte).trans hdec

/-- Settles O49: the forwarded addresses are those of the window's offsets. -/
theorem windowWritesAreForwarded : Obligations.WindowWritesAreForwarded := by
  intro a v s
  rw [memWrite_vdec]
  constructor
  · intro o ha
    rw [eq_windowAddr_iff.mpr ha, Vdec.forward_windowAddr]
  · intro hout
    refine Vdec.forward_of_ne_windowAddr (fun o ha => ?_) v s.vdec
    have hnum := eq_windowAddr_iff.mp ha
    have ho : o.val < 0x2000 := o.isLt
    omega

/-- Settles O46: read after write, and the frame of a memory write. -/
theorem everyAddressIsAByteCell : Obligations.EveryAddressIsAByteCell :=
  fun a b v s => ⟨memRead_memWrite a b v s, rfl⟩

/-- Settles O47, by the shift form of joining and splitting a word. -/
theorem wordsAreLittleEndian : Obligations.WordsAreLittleEndian := by
  intro s v
  have hne : s.sp - 2 ≠ s.sp - 1 := by bv_omega
  refine ⟨?_, ?_, ?_, ?_⟩
  · rw [readOperandWord_eq, joinBytes_eq_shift]
  · rw [memRead_push16, if_pos rfl, hiByte_eq_shift]
  · rw [memRead_push16, if_neg hne, if_pos rfl, loByte_eq_setWidth]
  · rw [pop16_spec, joinBytes_eq_shift]

end Sys2Proof.Machine
end

section
/-! PROOFS of the family 30_encoding.md, first layer. The opcode byte: the decoder's table and the encoder's bit fields are
inverse to each other, on instructions and on the values of the closed type `Kind`. -/

namespace Sys2Proof
open Machine

@[simp] theorem decodeOpcode_opcode (i : Instr) : decodeOpcode i.opcode false = some i :=
  (Laws.OpcodeAgrees.all i).1

theorem Instr.opcode_ne_escape (i : Instr) : i.opcode ≠ Config.prefixByte := (Laws.OpcodeAgrees.all i).2.1

@[simp] theorem Instr.kind_wf (i : Instr) : i.kind.wf = true := (Laws.OpcodeAgrees.all i).2.2

/-- No byte but an instruction's opcode decodes to it: the table has no aliases (R87). -/
theorem decodeOpcode_eq_some {op : Byte} {i : Instr} : decodeOpcode op false = some i ↔ op = i.opcode :=
  ⟨opcode_of_decodeOpcode, fun h => h ▸ decodeOpcode_opcode i⟩

/-- Instructions of one kind have one opcode byte, and so are one instruction. -/
theorem Instr.kind_injective : Function.Injective Instr.kind := by
  intro i j h
  have hop : i.opcode = j.opcode := congrArg Kind.opcode h
  exact Option.some.inj (by rw [← decodeOpcode_opcode i, hop, decodeOpcode_opcode])

/-- The opcode byte assembled from a well-formed kind's bit fields decodes to an instruction of that kind (R71 to R73). -/
theorem kind_decodeOpcode_opcode (k : Kind) (h : k.wf = true) :
    (decodeOpcode k.opcode false).map Instr.kind = some k := by
  cases k with
  | nop | halt => rfl
  | add r => cases r <;> rfl
  | jp c | call c | ret c => cases c <;> rfl
  | push p | pop p => cases p <;> rfl
  | ld dst src =>
    cases dst with
    | reg r =>
      cases src with
      | reg r' => cases r <;> cases r' <;> rfl
      | atHL | d8 => cases r <;> rfl
    | atHL =>
      cases src with
      | reg r => cases r <;> rfl
      | atHL => cases h
      | d8 => rfl

/-- Every well-formed kind is the kind of an instruction (R90). -/
theorem Kind.exists_instr {k : Kind} (h : k.wf = true) : ∃ i : Instr, i.kind = k := by
  obtain ⟨i, -, hi⟩ := Option.map_eq_some_iff.mp (kind_decodeOpcode_opcode k h)
  exact ⟨i, hi⟩

/-- `LD (HL),(HL)` is the one kind that is no instruction (R90). -/
theorem Kind.wf_iff {k : Kind} : k.wf = true ↔ k ≠ .ld .atHL .atHL := by
  cases k with
  | ld dst src => cases dst <;> cases src <;> simp [Kind.wf]
  | nop | halt | add _ | jp _ | call _ | ret _ | push _ | pop _ => simp [Kind.wf]

end Sys2Proof
end

section
/-! PROOFS of the family 30_encoding.md, second layer. The decoder over lists of bytes: which lists it accepts, with which
line and rest. -/

namespace Sys2Proof
open Machine

/-- The operand bytes of an instruction's format are read back as the operand (R72, R73). -/
theorem takeOperand_bytes {i : Instr} {o : Operand} (h : o.fits i.format = true) (rest : List Byte) :
    takeOperand i (o.bytes ++ rest) = .ok (⟨i, o⟩, rest) := by
  unfold takeOperand
  generalize i.format = f at h
  cases o with
  | none =>
    cases f with
    | f1 => rfl
    | f2 | f3 => cases h
  | d8 v =>
    cases f with
    | f2 => rfl
    | f1 | f3 => cases h
  | a16 w =>
    cases f with
    | f3 => simp [Operand.bytes]
    | f1 | f2 => cases h

/-- An operand that is read is one of the instruction's format, and its bytes are the ones read. -/
theorem takeOperand_eq_ok {i : Instr} {bs rest : List Byte} {l : Line} :
    takeOperand i bs = .ok (l, rest) ↔
      l.op = i ∧ l.operand.fits i.format = true ∧ l.operand.bytes ++ rest = bs := by
  constructor
  · intro h
    unfold takeOperand at h
    split at h
    case h_1 hf | h_2 hf | h_3 hf =>
      cases h
      exact ⟨rfl, by rw [hf]; rfl, by simp [Operand.bytes]⟩
    case h_4 | h_5 | h_6 => cases h
  · rintro ⟨rfl, hfit, rfl⟩
    exact takeOperand_bytes hfit rest

/-- The escape is followed by the empty prefixed table (R84, R85). -/
@[simp] theorem decode_escape (op : Byte) (bs : List Byte) :
    decode (Config.prefixByte :: op :: bs) = .error (.unmappedPrefixed op) := rfl

theorem decode_of_unmapped {op : Byte} (hp : op ≠ Config.prefixByte) (hop : decodeOpcode op false = none)
    (bs : List Byte) : decode (op :: bs) = .error (.unmapped op) := by
  simp only [decode, if_neg hp, hop]

@[simp] theorem decode_opcode (i : Instr) (bs : List Byte) : decode (i.opcode :: bs) = takeOperand i bs := by
  simp only [decode, if_neg i.opcode_ne_escape, decodeOpcode_opcode]

/-- The decoder accepts a list only if it begins with an instruction's opcode. -/
theorem exists_opcode_of_decode {bs : List Byte} {r : Line × List Byte} (h : decode bs = .ok r) :
    ∃ i tl, bs = Instr.opcode i :: tl := by
  cases bs with
  | nil => cases h
  | cons b tl =>
    cases hop : decodeOpcode b false with
    | some i => exact ⟨i, tl, congrArg (· :: tl) (decodeOpcode_eq_some.mp hop)⟩
    | none =>
      by_cases hp : b = Config.prefixByte
      · subst hp
        cases tl <;> cases h
      · rw [decode_of_unmapped hp hop] at h
        cases h

/-- What the decoder accepts: exactly the encodings of well-formed lines, with any bytes after them (R87, R89). -/
theorem decode_eq_ok {bs rest : List Byte} {l : Line} :
    decode bs = .ok (l, rest) ↔ l.wf = true ∧ encode l ++ rest = bs := by
  rw [Line.wf, Instr.kind_wf, Bool.true_and]
  constructor
  · intro h
    obtain ⟨i, tl, rfl⟩ := exists_opcode_of_decode h
    obtain ⟨rfl, hfit, hbytes⟩ := takeOperand_eq_ok.mp ((decode_opcode i tl).symm.trans h)
    exact ⟨hfit, congrArg (l.op.opcode :: ·) hbytes⟩
  · rintro ⟨hfit, rfl⟩
    exact (decode_opcode l.op _).trans (takeOperand_eq_ok.mpr ⟨rfl, hfit, rfl⟩)

end Sys2Proof
end

section
/-! PROOFS of the family 30_encoding.md, third layer. The Step of a taken jump. -/

namespace Sys2Proof.Machine

/-- A taken jump of a machine that is not halted changes `pc` alone (R160). -/
theorem run_jp_taken {c : Cond} {s : State} (hh : s.halted = false) (hc : condHolds c s.flags = true) :
    Kind.run (.jp c) s = { s with pc := readOperandWord s } := by
  rw [Kind.run, jump, if_pos hc, writeBack_running _ hh]

end Sys2Proof.Machine
end

section
/-! PROOFS of the family 30_encoding.md: its statements, assembled from the layers above. -/

namespace Sys2Proof
open Machine

/-- Settles O6: one direction of what the decoder accepts. -/
theorem decodeOfEncode : Obligations.DecodeOfEncode :=
  fun _ _ hwf => decode_eq_ok.mpr ⟨hwf, rfl⟩

/-- Settles O7: the other direction of what the decoder accepts. -/
theorem encodeOfDecode : Obligations.EncodeOfDecode :=
  fun _ _ _ h => decode_eq_ok.mp h

/-- Settles O5: a well-formed kind has an instruction, and by its opcode only one. -/
theorem instructionsAreTheWellFormedKinds : Obligations.InstructionsAreTheWellFormedKinds := by
  refine ⟨fun k hk => ?_, fun i => Kind.wf_iff.mp i.kind_wf, decodeOpcode_opcode .halt⟩
  obtain ⟨i, rfl⟩ := Kind.exists_instr (Kind.wf_iff.mpr hk)
  exact ⟨i, rfl, fun j hj => Instr.kind_injective hj⟩

/-- Settles O1: each word is the encoding of its line. -/
theorem decodesSampleWords : Obligations.DecodesSampleWords := by
  refine ⟨?_, ?_, ?_, ?_, ?_, ?_, ?_, ?_, ?_, ?_, ?_, ?_, ?_, ?_⟩ <;> exact decode_eq_ok.mpr (by decide)

/-- Settles O2: the selection of the opcode, and a taken jump at a machine that runs. -/
theorem documentedOpcodes : Obligations.DocumentedOpcodes := by
  refine ⟨by decide, fun s hbyte => ?_, ?_, decodeOpcode_opcode .addAC, rfl⟩
  · have hp : fetchPrefixed s = true := fetchPrefixed_eq_true hbyte
    exact ⟨hp, by rw [fetchOpcode, if_pos hp]⟩
  · rintro s lo hi hrun hh hop rfl rfl
    have hdec : decodeOpcode (memRead s.pc s) false = some .jp := decodeOpcode_eq_some.mpr hop
    have hsel : selectInstr s = .ok .jp :=
      selectInstr_of_decodeOpcode hrun hdec fun e => absurd (hh.symm.trans e) Bool.false_ne_true
    refine step_eq_next.mpr ⟨.jp, hsel, ?_⟩
    rw [← joinBytes_eq_shift, ← readOperandWord_eq]
    exact (run_jp_taken hh rfl).symm

/-- Settles O3: each byte is the opcode of a well-formed kind, assembled from its fields. -/
theorem opcodeFieldLayout : Obligations.OpcodeFieldLayout := by
  have hdec := kind_decodeOpcode_opcode
  refine ⟨rfl, rfl, rfl, fun r r' => hdec (.ld (.reg r) (.reg r')) rfl,
    fun r => ⟨hdec (.add r) rfl, hdec (.ld (.reg r) .atHL) rfl, hdec (.ld .atHL (.reg r)) rfl, hdec (.ld (.reg r) .d8) rfl⟩,
    hdec (.ld .atHL .d8) rfl, fun c cc hcode => ?_, fun p => ⟨hdec (.push p) rfl, hdec (.pop p) rfl⟩,
    hdec .nop rfl, hdec .halt rfl, hdec (.jp .always) rfl, hdec (.call .always) rfl, hdec (.ret .always) rfl⟩
  have hjp := hdec (.jp c) rfl
  have hcall := hdec (.call c) rfl
  have hret := hdec (.ret c) rfl
  simp only [Kind.opcode, hcode] at hjp hcall hret
  exact ⟨hjp, hcall, hret⟩

/-- Settles O4: a mapped byte is an instruction's opcode, and every one of these is listed; each listed byte has a row. -/
theorem decoderMapsExactlyTheTable : Obligations.DecoderMapsExactlyTheTable := by
  refine ⟨fun op => ⟨fun hsome => ?_, ?_⟩, decodeOpcode_prefixed, fun op bs hp hop => decode_of_unmapped hp hop bs,
    decode_escape⟩
  · obtain ⟨i, hi⟩ := Option.isSome_iff_exists.mp hsome
    rw [decodeOpcode_eq_some.mp hi]
    cases i <;> decide
  · revert op
    decide

end Sys2Proof
end

section
/-! PROOFS of the family 40_step_cycle.md, first layer. The state the host sees after a Step, the end of a run, and the
Steps that end one. -/

namespace Sys2Proof.Machine

/-! ### The state after a Step -/

theorem afterStep_of_next {s t : State} (h : step s = .next t) : s.afterStep = t := by
  rw [State.afterStep, h]

theorem afterStep_of_fault {s : State} {f : Fault} (h : step s = .fault f) : s.afterStep = raiseFatal f s := by
  rw [State.afterStep, h]

/-- A Step is never refused: fetch and decode select an instruction, whose exec answers a next state, or end the Step. -/
theorem step_next_or_fault (s : State) : (∃ t, step s = .next t) ∨ ∃ f, step s = .fault f := by
  cases hsel : selectInstr s with
  | ok i => exact .inl ⟨_, step_eq_next.mpr ⟨i, hsel, rfl⟩⟩
  | error f => exact .inr ⟨f, step_eq_fault.mpr hsel⟩

/-! ### The Steps that end a run (R103, R106), and those asked of one that has ended (R109) -/

theorem step_of_decode_none {s : State} (hrun : s.status = .running)
    (hdec : decodeOpcode (fetchOpcode s) (fetchPrefixed s) = none) : step s = .fault (decodeFault s) :=
  step_eq_fault.mpr (selectInstr_eq_error.mpr (.inr ⟨hrun, .inl ⟨hdec, rfl⟩⟩))

theorem step_of_halted_of_ne_halt {s : State} {i : Instr} (hrun : s.status = .running) (hh : s.halted = true)
    (hdec : decodeOpcode (fetchOpcode s) (fetchPrefixed s) = some i) (hi : i ≠ .halt) :
    step s = .fault (.undefinedWhileHalted s.pc) :=
  step_eq_fault.mpr (selectInstr_eq_error.mpr (.inr ⟨hrun, .inr ⟨i, hdec, hh, hi, rfl⟩⟩))

theorem step_of_fatal {s : State} {f : Fault} (h : s.status = .fatal f) : step s = .fault f :=
  step_eq_fault.mpr (selectInstr_eq_error.mpr (.inl h))

/-- A machine stopped by a condition is left whole by the same condition. -/
theorem raiseFatal_of_fatal {s : State} {f : Fault} (h : s.status = .fatal f) : raiseFatal f s = s := by
  rw [raiseFatal, ← h]

/-! ### The end of a run (R266) -/

theorem runEnd_eq_halted {s : State} : s.runEnd = some .halted ↔ s.status = .running ∧ s.halted = true := by
  unfold State.runEnd
  cases s.status with
  | running => simp
  | fatal f => simp

theorem runEnd_eq_fatal {s : State} {f : Fault} : s.runEnd = some (.fatal f) ↔ s.status = .fatal f := by
  unfold State.runEnd
  cases s.status with
  | running => cases s.halted <;> simp
  | fatal g => simp

end Sys2Proof.Machine
end

section
/-! PROOFS of the family 40_step_cycle.md, second layer. Where an operation leaves `pc`: behind the instruction where no
transfer is taken, at the target of a taken JP, CALL or RET. -/

namespace Sys2Proof.Machine

/-- Where no transfer is taken, an operation is its effect and the advance of `pc` by the instruction's length (R110). -/
theorem run_of_not_taken {i : Instr} {s : State} (h : transferTaken i s = false) :
    Kind.run i.kind s = writeBack (s.pc + BitVec.ofNat 16 i.length) (Kind.effect i.kind s) := by
  unfold transferTaken at h
  unfold Instr.length Instr.format
  generalize i.kind = k at h
  cases k with
  | nop | halt | add _ | push _ | pop _ => rfl
  | ld dst src => cases src <;> rfl
  | jp c | call c | ret c => simp [Kind.run, jump, callSub, returnSub, Kind.effect, Kind.format, Format.length, h]

/-- A taken CALL of a machine that is not halted pushes the return address, then goes to the operand word it reads from
the memory the push has left (R162). -/
theorem run_call_taken {c : Cond} {s : State} (hh : s.halted = false) (hc : condHolds c s.flags = true) :
    Kind.run (.call c) s = { push16 (s.pc + 3) s with pc := readOperandWord (push16 (s.pc + 3) s) } := by
  simp only [Kind.run, callSub, if_pos hc]
  exact writeBack_running (s := push16 (s.pc + 3) s) _ hh

/-- A taken RET of a machine that is not halted pops the next `pc` (R164). -/
theorem run_ret_taken {c : Cond} {s : State} (hh : s.halted = false) (hc : condHolds c s.flags = true) :
    Kind.run (.ret c) s = { (pop16 s).2 with pc := (pop16 s).1 } := by
  simp only [Kind.run, returnSub, if_pos hc]
  exact writeBack_running (s := (pop16 s).2) _ hh

/-- `pc` after a taken JP or CALL: the operand word in the memory the operation leaves. -/
theorem run_pc_of_jp_or_call_taken {k : Kind} {c : Cond} {s : State} (hk : k = .jp c ∨ k = .call c)
    (hh : s.halted = false) (hc : condHolds c s.flags = true) :
    (Kind.run k s).pc = memReadWord (s.pc + 1) (Kind.run k s) := by
  obtain rfl | rfl := hk
  · rw [run_jp_taken hh hc]
    rfl
  · rw [run_call_taken hh hc]
    rfl

/-! ### The kinds that take a condition (R108) -/

/-- The three families of conditional kinds: JP, CALL and RET. -/
def IsTransfer (mk : Cond → Kind) : Prop := mk = .jp ∨ mk = .call ∨ mk = .ret

section
variable {mk : Cond → Kind} (hmk : IsTransfer mk) {c : Cond} {s : State}
include hmk

theorem transferTaken_of_kind {i : Instr} (hi : i.kind = mk c) : transferTaken i s = condHolds c s.flags := by
  unfold transferTaken
  rw [hi]
  obtain rfl | rfl | rfl := hmk <;> rfl

/-- Where its condition holds, a conditional form does what the unconditional form does. -/
theorem run_of_condHolds (hc : condHolds c s.flags = true) : Kind.run (mk c) s = Kind.run (mk .always) s := by
  have halways : condHolds .always s.flags = true := rfl
  obtain rfl | rfl | rfl := hmk
  · simp only [Kind.run, jump, hc, halways]
  · simp only [Kind.run, callSub, hc, halways]
  · simp only [Kind.run, returnSub, hc, halways]

/-- Where its condition does not hold, a conditional form has no effect but the advance of `pc`. -/
theorem effect_of_not_condHolds (hc : condHolds c s.flags = false) : Kind.effect (mk c) s = s := by
  obtain rfl | rfl | rfl := hmk
  · rfl
  · simp only [Kind.effect, hc, Bool.false_eq_true, ↓reduceIte]
  · simp only [Kind.effect, hc, Bool.false_eq_true, ↓reduceIte]

end

end Sys2Proof.Machine
end

section
/-! PROOFS of the family 40_step_cycle.md, third layer. The bytes at `pc` as the decoder over lists of bytes reads them. -/

namespace Sys2Proof.Machine

/-- When the three bytes from `pc` decode to a line, the byte at `pc` decodes to its instruction, and the operand readers
of execute read the line's operand (R72, R73, R78). -/
theorem operands_of_decode {s : State} {l : Line} {rest : List Byte}
    (h : decode [memRead s.pc s, memRead (s.pc + 1) s, memRead (s.pc + 2) s] = .ok (l, rest)) :
    decodeOpcode (memRead s.pc s) false = some l.op ∧
    (∀ v, l.operand = .d8 v → readOperandByte s = v) ∧
    (∀ w, l.operand = .a16 w → readOperandWord s = w) := by
  obtain ⟨-, henc⟩ := decode_eq_ok.mp h
  obtain ⟨hop, hbytes⟩ := List.cons.inj henc
  refine ⟨decodeOpcode_eq_some.mpr hop.symm, fun v hv => ?_, fun w hw => ?_⟩
  · rw [hv] at hbytes
    exact (List.cons.inj hbytes).1.symm
  · rw [hw] at hbytes
    obtain ⟨hlo, htail⟩ := List.cons.inj hbytes
    obtain ⟨hhi, -⟩ := List.cons.inj htail
    rw [readOperandWord_eq, ← hlo, ← hhi, joinBytes_hi_lo]

end Sys2Proof.Machine
end

section
/-! PROOFS of the family 40_step_cycle.md: its statements, assembled from the layers above. -/

namespace Sys2Proof.Machine

/-- Settles O9: the failed selection is the whole Step. -/
theorem decodeFailureEndsStep : Obligations.DecodeFailureEndsStep := by
  intro s hrun hdec
  have hstep := step_of_decode_none hrun hdec
  exact ⟨_, hstep, afterStep_of_fault hstep⟩

/-- Settles O11: HALT on a halted machine and a condition raised again change nothing. -/
theorem endedRunsNeverChange : Obligations.EndedRunsNeverChange := by
  refine fun s => ⟨fun hinv hend => ?_, fun f hend => ?_⟩
  · obtain ⟨hrun, hh⟩ := runEnd_eq_halted.mp hend
    have hstep := step_self_of_halted hrun hinv hh
    exact ⟨hstep, afterStep_of_next hstep⟩
  · have hfatal := runEnd_eq_fatal.mp hend
    have hstep := step_of_fatal hfatal
    exact ⟨hstep, (afterStep_of_fault hstep).trans (raiseFatal_of_fatal hfatal)⟩

/-- Settles O12: a selected instruction answers a next state, and a failed selection changes `status` alone. -/
theorem stepIsNextOrFatal : Obligations.StepIsNextOrFatal := by
  intro s
  obtain ⟨t, hstep⟩ | ⟨f, hstep⟩ := step_next_or_fault s
  · exact .inl ⟨t, hstep, afterStep_of_next hstep⟩
  · exact .inr ⟨f, hstep, afterStep_of_fault hstep⟩

/-- Settles O15: by the write-back of each case, which sees a machine that is not halted. -/
theorem nextPcIsLengthOrTarget : Obligations.NextPcIsLengthOrTarget := by
  intro i s hh hi
  refine ⟨_, exec_eq_run i s, fun hnot => ?_, ?_, ?_⟩
  · have hrunning : (Kind.effect i.kind s).halted = false := by
      rw [← run_halted, ← Bool.not_eq_true, run_halted_iff, kind_eq_halt]
      simp [hh, hi]
    rw [run_of_not_taken hnot, writeBack_running _ hrunning]
  · rintro htaken ⟨c, hk⟩
    have hc : condHolds c s.flags = true := by
      obtain hjp | hcall := hk
      · exact (transferTaken_of_kind (.inl rfl) hjp).symm.trans htaken
      · exact (transferTaken_of_kind (.inr (.inl rfl)) hcall).symm.trans htaken
    exact run_pc_of_jp_or_call_taken hk hh hc
  · rintro htaken ⟨c, hret⟩
    rw [transferTaken_of_kind (.inr (.inr rfl)) hret] at htaken
    rw [hret, run_ret_taken hh htaken]

/-- Settles O31: one argument for the three families, by whether the condition holds. -/
theorem conditionsAreShared : Obligations.ConditionsAreShared := by
  refine ⟨fun f => ⟨rfl, rfl, rfl, rfl, rfl⟩, fun c f g hz hcarry => ?_, fun i j c s hforms => ?_⟩
  · cases c <;> simp [condHolds, hz, hcarry]
  · obtain ⟨mk, hmk, hi, hj⟩ : ∃ mk, IsTransfer mk ∧ i.kind = mk c ∧ j.kind = mk .always := by
      obtain hjp | hcall | hret := hforms
      · exact ⟨_, .inl rfl, hjp⟩
      · exact ⟨_, .inr (.inl rfl), hcall⟩
      · exact ⟨_, .inr (.inr rfl), hret⟩
    constructor
    · intro hc
      rw [exec_eq_run, exec_eq_run, hi, hj, run_of_condHolds hmk hc]
    · intro hc hh
      have hnot : transferTaken i s = false := (transferTaken_of_kind hmk hi).trans hc
      rw [exec_eq_run, run_of_not_taken hnot, hi, effect_of_not_condHolds hmk hc, writeBack_running _ hh]

/-- Settles O58: HALT halts the machine on itself, and a halted machine's Step is the identity. -/
theorem stepKeepsHaltInvariant : Obligations.StepKeepsHaltInvariant :=
  fun _ _ hinv hstep => step_haltInv hstep hinv

/-- Settles O8: what decodes is the encoding of the line, so its first byte selects and the others are the operand. -/
theorem stepRunsDecodedInstruction : Obligations.StepRunsDecodedInstruction := by
  intro s l rest hdecode hrun hhalt
  obtain ⟨hop, hoperands⟩ := operands_of_decode hdecode
  exact ⟨step_eq_exec (selectInstr_of_decodeOpcode hrun hop hhalt), hoperands⟩

/-- Settles O10: the check for HALT is the whole Step. -/
theorem haltedMachineRunsOnlyHalt : Obligations.HaltedMachineRunsOnlyHalt := by
  intro s i hrun hh hdec hi
  have hstep := step_of_halted_of_ne_halt hrun hh hdec hi
  exact ⟨hstep, afterStep_of_fault hstep⟩

end Sys2Proof.Machine
end

section
/-! PROOFS of the family 41_nop_halt.md: NOP's operation beside `run_halt`, and the family's statements. -/

namespace Sys2Proof.Machine

/-- NOP's operation (R120): the write-back guard lets the advance of `pc` through. -/
theorem run_nop {s : State} (hh : s.halted = false) : Kind.run .nop s = { s with pc := s.pc + 1 } :=
  writeBack_running _ hh

/-- Settles O16: NOP has no effect before the write-back of `pc`, which sees a machine that is not halted. -/
theorem nopResult : Obligations.NopResult := by
  intro s hh
  rw [exec_eq_run, Instr.kind, run_nop hh]

/-- Settles O17: the write-back guard sees the `halted` that HALT has just set, so the returned `pc` is dropped. -/
theorem haltResult : Obligations.HaltResult := by
  intro s
  rw [exec_eq_run, Instr.kind, run_halt]

end Sys2Proof.Machine
end

section
/-! PROOFS of the family 42_add.md: what `add8` answers, one lemma per result, ADD's operation beside `run_nop`, and the
family's statements. -/

namespace Sys2Proof.Machine

/-! ### The 8-bit add (R131) -/

section
variable (a v : Byte)

theorem add8_sum_toNat : (add8 a v).1.toNat = (a.toNat + v.toNat) % 256 := by
  rw [add8_eq, BitVec.toNat_add]

theorem add8_z_iff : (add8 a v).2.z = true ↔ (a.toNat + v.toNat) % 256 = 0 := by
  rw [add8_eq, decide_eq_true_eq, BitVec.toNat_eq, BitVec.toNat_add, BitVec.ofNat_eq_ofNat, BitVec.toNat_zero]

@[simp] theorem add8_n : (add8 a v).2.n = false := rfl

theorem add8_c_iff : (add8 a v).2.c = true ↔ a.toNat + v.toNat > 0xFF := by
  rw [add8_eq, decide_eq_true_eq]

theorem add8_c_eq_false_iff : (add8 a v).2.c = false ↔ a.toNat + v.toNat ≤ 0xFF := by
  rw [← Bool.not_eq_true, add8_c_iff, not_lt]

theorem add8_h_iff : (add8 a v).2.h = true ↔ a.toNat % 16 + v.toNat % 16 > 0xF := by
  rw [add8_eq, decide_eq_true_eq]

/-- A zero sum without a carry is a sum of zeros. -/
theorem add8_z_and_not_c_iff : (add8 a v).2.z = true ∧ (add8 a v).2.c = false ↔ a = 0 ∧ v = 0 := by
  rw [add8_z_iff, add8_c_eq_false_iff, BitVec.toNat_eq, BitVec.toNat_eq, BitVec.ofNat_eq_ofNat, BitVec.toNat_zero]
  omega

/-- Two bytes sum to at most 510, so 256 is the one multiple of 256 that carries. -/
theorem add8_z_and_c_iff : (add8 a v).2.z = true ∧ (add8 a v).2.c = true ↔ a.toNat + v.toNat = 256 := by
  have ha := a.isLt
  have hv := v.isLt
  rw [add8_z_iff, add8_c_iff]
  omega

/-- Where the sum is 256 the low nibbles sum to 0 or to 16. -/
theorem add8_h_iff_of_z_of_c (hz : (add8 a v).2.z = true) (hc : (add8 a v).2.c = true) :
    (add8 a v).2.h = true ↔ ¬(a.toNat % 16 = 0 ∧ v.toNat % 16 = 0) := by
  have hsum : a.toNat + v.toNat = 256 := (add8_z_and_c_iff a v).mp ⟨hz, hc⟩
  rw [add8_h_iff]
  omega
end

/-- A sum that is not zero fixes neither the carry nor the half-carry: 1 + 0, 0x0F + 0x01, 0xF0 + 0x20, 0xFF + 0x02. -/
theorem exists_add8_not_z (c h : Bool) :
    ∃ a v : Byte, (add8 a v).2.z = false ∧ (add8 a v).2.c = c ∧ (add8 a v).2.h = h :=
  match c, h with
  | false, false => ⟨0x01, 0x00, by decide⟩
  | false, true => ⟨0x0F, 0x01, by decide⟩
  | true, false => ⟨0xF0, 0x20, by decide⟩
  | true, true => ⟨0xFF, 0x02, by decide⟩

/-! ### ADD A,r (R130) -/

/-- ADD's operation: both operands are the old ones, and the write-back guard lets the advance of `pc` through. -/
theorem run_add {s : State} (hh : s.halted = false) (r : Reg8) :
    Kind.run (.add r) s = { s with
      regs := { s.regs with a := (add8 s.regs.a (readReg r s)).1 }
      flags := (add8 s.regs.a (readReg r s)).2
      pc := s.pc + 1 } :=
  writeBack_running _ hh

/-- Settles O18: the facts about the flags are arithmetic on the exact sum, and four sums show the combinations. -/
theorem add8Law : Obligations.Add8Law :=
  ⟨fun a v => ⟨add8_sum_toNat a v, add8_z_iff a v, add8_n a v, add8_c_iff a v, add8_h_iff a v,
    add8_z_and_not_c_iff a v, add8_z_and_c_iff a v, add8_h_iff_of_z_of_c a v⟩, exists_add8_not_z⟩

/-- Settles O19: ADD's operation with the add of R131 written out as a wrapping sum and its flags. -/
theorem addResult : Obligations.AddResult := by
  intro i r s hi hh
  rw [exec_eq_run, hi, run_add hh, add8_eq]

end Sys2Proof.Machine
end

section
/-! PROOFS of the family 43_load.md: LD's operation by its target, what exec of a load answers for every source, and the
family's statements. -/

namespace Sys2Proof.Machine

/-! ### LD's operation (R140, R146) -/

/-- The length in bytes of a load, which its source alone decides, as a distance of `pc` (R110). -/
def loadLength (src : Src8) : Word := BitVec.ofNat 16 (Kind.ld .atHL src).format.length

/-- LD of a machine that is not halted: the source is the old one, and the write-back guard, which sees the `halted`
that no target's write touches, lets the advance of `pc` through. -/
theorem run_ld {s : State} (hh : s.halted = false) (dst : Dst8) (src : Src8) :
    Kind.run (.ld dst src) s = { writeDst dst (readSrc src s) s with pc := s.pc + loadLength src } := by
  have hrunning : (writeDst dst (readSrc src s) s).halted = false := by
    cases dst with
    | reg r => exact (writeReg_halted ..).trans hh
    | atHL => exact hh
  cases src with
  | reg _ | atHL | d8 => exact writeBack_running _ hrunning

/-! ### exec of a load, by its target -/

section
variable {i : Instr} {src : Src8} {s : State}

/-- A load to a register writes that register with the source's old value; besides, only `pc` changes. -/
theorem exec_ld_reg {r : Reg8} (hi : i.kind = .ld (.reg r) src) (hh : s.halted = false) :
    ∃ t, exec i s = .next t ∧ (∀ q, readReg q t = if q = r then readSrc src s else readReg q s) ∧
      t = { s with regs := t.regs, pc := s.pc + loadLength src } := by
  refine ⟨_, exec_eq_run i s, fun q => ?_, ?_⟩
  · rw [hi, run_readReg, Kind.effect, writeDst, readReg_writeReg]
  · rw [hi, run_ld hh, writeDst, writeReg_frame]

/-- A load to (HL) stores the source's old value in the byte at HL and forwards that write to the VDEC; besides, only
`pc` changes. -/
theorem exec_ld_atHL (hi : i.kind = .ld .atHL src) (hh : s.halted = false) :
    ∃ t, exec i s = .next t ∧ (∀ a, memRead a t = if a = addrHL s then readSrc src s else memRead a s) ∧
      t = { s with
        mem := t.mem, vdec := s.vdec.forward (addrHL s) (readSrc src s), pc := s.pc + loadLength src } := by
  refine ⟨_, exec_eq_run i s, fun a => ?_, ?_⟩
  · rw [hi, run_memRead, Kind.effect, writeDst, memRead_memWrite]
  · rw [hi, run_ld hh]
    rfl
end

/-! ### The family's statements -/

/-- Settles O20: a load to a register whose source is a register. -/
theorem loadRegisterFromRegister : Obligations.LoadRegisterFromRegister :=
  fun _ _ _ _ hi hh => exec_ld_reg hi hh

/-- Settles O21: a load to a register whose source is the byte at the old HL, read before H or L is written. -/
theorem loadRegisterFromMemory : Obligations.LoadRegisterFromMemory :=
  fun _ _ _ hi hh => exec_ld_reg hi hh

/-- Settles O22: a load to (HL) whose source is a register. -/
theorem storeRegisterToMemory : Obligations.StoreRegisterToMemory :=
  fun _ _ _ hi hh => exec_ld_atHL hi hh

/-- Settles O23: a load to a register whose source is the byte after the opcode, so two bytes long. -/
theorem loadRegisterImmediate : Obligations.LoadRegisterImmediate :=
  fun _ _ _ hi hh => exec_ld_reg hi hh

/-- Settles O24: a load to (HL) whose source is the byte after the opcode, read before the store and two bytes long. -/
theorem storeImmediateToMemory : Obligations.StoreImmediateToMemory :=
  fun _ hh => exec_ld_atHL (i := .ldAtHLImm) rfl hh

end Sys2Proof.Machine
end

section
/-! PROOFS of the family 44_jump_call_return.md, first layer: the word a push leaves on the stack, the operand word a push
leaves behind the opcode, and exec of a JP, CALL or RET, taken and not taken. -/

namespace Sys2Proof.Machine

/-! ### Words after a push (R180, R182) -/

section
variable (v : Word) (s : State)

/-- The pushed word stands at the new `sp`, low byte first. -/
@[simp] theorem memReadWord_push16 : memReadWord (s.sp - 2) (push16 v s) = v := by
  have hhi : s.sp - 2 + 1 = s.sp - 1 := by bv_omega
  have hne : s.sp - 2 ≠ s.sp - 1 := by bv_omega
  rw [memReadWord, hhi, memRead_push16, memRead_push16, if_pos rfl, if_neg hne, if_pos rfl, joinBytes_hi_lo]

/-- A pop takes a pushed word back and restores `sp`, for every `sp`. -/
@[simp] theorem pop16_push16 : pop16 (push16 v s) = (v, { push16 v s with sp := s.sp }) := by
  have hword : joinBytes (memRead (s.sp - 2 + 1) (push16 v s)) (memRead (s.sp - 2) (push16 v s)) = v :=
    memReadWord_push16 v s
  rw [pop16_spec, push16_sp, hword, BitVec.sub_add_cancel]
end

/-- Where a push misses both operand bytes, the operand word stays. -/
theorem readOperandWord_push16_of_disjoint {s : State}
    (h : ∀ a, a = s.pc + 1 ∨ a = s.pc + 2 → a ≠ s.sp - 1 ∧ a ≠ s.sp - 2) (v : Word) :
    readOperandWord (push16 v s) = readOperandWord s := by
  have hbyte : ∀ a, a = s.pc + 1 ∨ a = s.pc + 2 → memRead a (push16 v s) = memRead a s := by
    intro a ha
    obtain ⟨hhi, hlo⟩ := h a ha
    rw [memRead_push16, if_neg hhi, if_neg hlo]
  have hpc : (push16 v s).pc = s.pc := rfl
  rw [readOperandWord_eq, readOperandWord_eq, hpc, hbyte _ (.inl rfl), hbyte _ (.inr rfl)]

/-- Where a push covers both operand bytes, the pushed word is the operand word. -/
theorem readOperandWord_push16_of_covered {s : State} (h : s.sp = s.pc + 3) (v : Word) :
    readOperandWord (push16 v s) = v := by
  have haddr : s.pc + 1 = s.sp - 2 := by bv_omega
  calc readOperandWord (push16 v s)
    _ = memReadWord (s.pc + 1) (push16 v s) := rfl
    _ = v := by rw [haddr, memReadWord_push16]

/-! ### exec of JP, CALL and RET (R160 to R165) -/

section
variable {i : Instr} {c : Cond} {s : State}

/-- A JP, CALL or RET not taken only advances `pc`, by its length. -/
theorem exec_of_not_condHolds {mk : Cond → Kind} (hmk : IsTransfer mk) (hi : i.kind = mk c) (hh : s.halted = false)
    (hc : condHolds c s.flags = false) :
    exec i s = .next { s with pc := s.pc + BitVec.ofNat 16 (mk c).format.length } := by
  have hnot : transferTaken i s = false := (transferTaken_of_kind hmk hi).trans hc
  rw [exec_eq_run, run_of_not_taken hnot, Instr.length, Instr.format, hi, effect_of_not_condHolds hmk hc,
    writeBack_running _ hh]

theorem exec_jp_taken (hi : i.kind = .jp c) (hh : s.halted = false) (hc : condHolds c s.flags = true) :
    exec i s = .next { s with pc := readOperandWord s } := by
  rw [exec_eq_run, hi, run_jp_taken hh hc]

theorem exec_call_taken (hi : i.kind = .call c) (hh : s.halted = false) (hc : condHolds c s.flags = true) :
    exec i s = .next { push16 (s.pc + 3) s with pc := readOperandWord (push16 (s.pc + 3) s) } := by
  rw [exec_eq_run, hi, run_call_taken hh hc]

theorem exec_ret_taken (hi : i.kind = .ret c) (hh : s.halted = false) (hc : condHolds c s.flags = true) :
    exec i s = .next { (pop16 s).2 with pc := (pop16 s).1 } := by
  rw [exec_eq_run, hi, run_ret_taken hh hc]

/-- The next state of a taken CALL is the one of its operation. -/
theorem eq_of_exec_call_taken {t : State} (hi : i.kind = .call c) (hh : s.halted = false)
    (hc : condHolds c s.flags = true) (hexec : exec i s = .next t) :
    t = { push16 (s.pc + 3) s with pc := readOperandWord (push16 (s.pc + 3) s) } :=
  Host.Outcome.next.inj (hexec.symm.trans (exec_call_taken hi hh hc))
end

end Sys2Proof.Machine
end

section
/-! PROOFS of the family 44_jump_call_return.md: its statements, assembled from the layer above. -/

namespace Sys2Proof.Machine

/-- Settles O26: by whether the condition holds. -/
theorem jumpResult : Obligations.JumpResult := by
  intro i c s hi hh
  cases hc : condHolds c s.flags with
  | true => rw [exec_jp_taken hi hh hc, readOperandWord_eq, if_pos rfl]
  | false => exact exec_of_not_condHolds (.inl rfl) hi hh hc

/-- Settles O25: JP a16 is the JP whose condition always holds. -/
theorem jumpUnconditional : Obligations.JumpUnconditional := by
  refine ⟨decodeOpcode_opcode .jp, rfl, fun s hh => ?_⟩
  rw [exec_jp_taken (c := .always) rfl hh rfl, readOperandWord_eq, joinBytes_eq_shift]

/-- Settles O27: the push's effect on every byte, the VDEC and `sp`; the rest of its frame is by computation. -/
theorem callTaken : Obligations.CallTaken := by
  intro i c s hi hc hh
  obtain ⟨-, -, -, hsp, -, -, hmem, hvdec⟩ := push16_spec (s.pc + 3) s
  refine ⟨_, exec_call_taken hi hh hc, hmem, ?_⟩
  rw [← hvdec, ← hsp, readOperandWord_eq]
  rfl

/-- Settles O28: the not-taken form of a CALL, three bytes long. -/
theorem callNotTaken : Obligations.CallNotTaken :=
  fun _ _ _ hi hc hh => exec_of_not_condHolds (.inr (.inl rfl)) hi hh hc

/-- Settles O29: the operand word that a taken CALL reads after its push, in the two layouts. -/
theorem callTargetAndStackOverlap : Obligations.CallTargetAndStackOverlap := by
  intro i c s t hi hc hh hexec
  obtain rfl := eq_of_exec_call_taken hi hh hc hexec
  exact ⟨fun hout => (readOperandWord_push16_of_disjoint hout _).trans (readOperandWord_eq s),
    fun hsp => readOperandWord_push16_of_covered hsp _⟩

/-- Settles O30: by whether the condition holds. -/
theorem returnResult : Obligations.ReturnResult := by
  intro i c s hi hh
  cases hc : condHolds c s.flags with
  | true => rw [exec_ret_taken hi hh hc, pop16_spec, if_pos rfl]
  | false => exact exec_of_not_condHolds (.inr (.inr rfl)) hi hh hc

/-- Settles O32: a pop does not read `pc`, so RET pops what CALL pushed, wherever the operand read went. -/
theorem callThenReturn : Obligations.CallThenReturn := by
  intro i c s t hi hc hh hexec
  obtain rfl := eq_of_exec_call_taken hi hh hc hexec
  have hret : exec .ret { push16 (s.pc + 3) s with pc := readOperandWord (push16 (s.pc + 3) s) } =
      .next { (pop16 (push16 (s.pc + 3) s)).2 with pc := (pop16 (push16 (s.pc + 3) s)).1 } :=
    exec_ret_taken (c := .always) rfl hh rfl
  rw [hret, pop16_push16]

end Sys2Proof.Machine
end

section
/-! PROOFS of the family 45_push_pop.md, first layer: the frames of a push and of a pair write, the memory a push after
a pop leaves, and the operations of PUSH and POP. -/

namespace Sys2Proof.Machine

/-! ### Frames (R14, R180) -/

/-- A push changes memory, the VDEC and `sp` only. -/
theorem push16_frame (v : Word) (s : State) :
    push16 v s = { s with
      mem := (push16 v s).mem
      vdec := (s.vdec.forward (s.sp - 1) (hiByte v)).forward (s.sp - 2) (loByte v)
      sp := s.sp - 2 } := by
  obtain ⟨-, -, -, hsp, -, -, -, hvdec⟩ := push16_spec v s
  rw [← hvdec, ← hsp]
  rfl

/-- A pair write changes the data registers and the flags only. -/
theorem writePair_frame (p : Pair) (v : Word) (s : State) :
    writePair p v s = { s with regs := (writePair p v s).regs, flags := (writePair p v s).flags } := by
  cases p <;> rfl

/-! ### A push after a pop (R182) -/

/-- Pushing the popped word back rewrites the two bytes it came from with themselves. -/
theorem memRead_push16_pop16 (a : Word) (s : State) : memRead a (push16 (pop16 s).1 (pop16 s).2) = memRead a s := by
  have hhi : s.sp + 2 - 1 = s.sp + 1 := by bv_omega
  have hlo : s.sp + 2 - 2 = s.sp := BitVec.add_sub_cancel ..
  rw [memRead_push16, memRead_pop16, pop16_sp, hhi, hlo, pop16_spec, hiByte_joinBytes, loByte_joinBytes]
  by_cases h1 : a = s.sp + 1
  · rw [if_pos h1, h1]
  · by_cases h0 : a = s.sp
    · rw [if_neg h1, if_pos h0, h0]
    · rw [if_neg h1, if_neg h0]

/-! ### The operations of PUSH and POP (R183, R184) -/

/-- PUSH of a machine that is not halted: the push of the pair's value, and the advance of `pc`. -/
theorem run_push {s : State} (hh : s.halted = false) (p : Pair) :
    Kind.run (.push p) s = { push16 (readPair p s) s with pc := s.pc + 1 } :=
  writeBack_running _ hh

/-- POP of a machine that is not halted: the word at the old `sp` goes to the pair, `sp` and `pc` advance. -/
theorem run_pop {s : State} (hh : s.halted = false) (p : Pair) :
    Kind.run (.pop p) s =
      { writePair p (joinBytes (memRead (s.sp + 1) s) (memRead s.sp s)) { s with sp := s.sp + 2 } with
        pc := s.pc + 1 } := by
  rw [Kind.run, popPair, pop16_spec]
  exact writeBack_running _ ((writePair_halted ..).trans hh)

end Sys2Proof.Machine
end

section
/-! PROOFS of the family 45_push_pop.md: its statements, assembled from the layer above. -/

namespace Sys2Proof.Machine

/-- Settles O33: every byte after a push and the push's frame, with the word's two halves in the shift form. -/
theorem push16Effect : Obligations.Push16Effect := by
  intro v s
  rw [← hiByte_eq_shift, ← loByte_eq_setWidth]
  exact ⟨fun a => memRead_push16 a v s, push16_frame v s⟩

/-- Settles O34: the pop's result, with the popped word in the shift form. -/
theorem pop16Effect : Obligations.Pop16Effect := by
  intro s
  rw [pop16_spec, ← joinBytes_eq_shift]
  exact ⟨rfl, rfl⟩

/-- Settles O35: a pop takes the pushed word back, and a push after a pop rewrites the bytes that were read. -/
theorem stackSymmetry : Obligations.StackSymmetry := by
  constructor
  · intro v s
    rw [pop16_push16]
    exact ⟨rfl, rfl⟩
  · intro s
    refine ⟨?_, fun a => memRead_push16_pop16 a s⟩
    rw [push16_sp, pop16_sp, BitVec.add_sub_cancel]

/-- Settles O36: PUSH is the push of the pair's value and the advance of `pc`, which moves no byte. -/
theorem pushResult : Obligations.PushResult := by
  intro i p s hi hh
  refine ⟨_, exec_eq_run i s, ?_⟩
  rw [hi, run_push hh]
  exact ⟨fun a => memRead_push16 a _ s, congrArg (fun t => { t with pc := s.pc + 1 }) (push16_frame ..)⟩

/-- Settles O37: POP is a pair write of the popped word; the flags are in the low half of AF alone. -/
theorem popResult : Obligations.PopResult := by
  intro i p s hi hh
  refine ⟨_, exec_eq_run i s, ?_⟩
  rw [hi, run_pop hh]
  refine ⟨fun hp => ?_, fun hp => ?_, fun q hq => readReg_writePair_of_not_has hq .., ?_⟩
  · exact ⟨readPair_writePair hp .., writePair_flags hp ..⟩
  · subst hp
    exact ⟨hiByte_joinBytes .., congrArg decodeFlags (loByte_joinBytes ..)⟩
  · exact congrArg (fun t => { t with pc := s.pc + 1 }) (writePair_frame ..)

end Sys2Proof.Machine
end

section
/-! PROOFS of the family 48_video_tile_decoder.md, the layer its statements need. A pixel is touched by a write exactly when
the written offset is one of the two bytes of the pixel's row; so after any two writes a touched pixel is the function of the
final buffer, and the order of the writes is gone. -/

namespace Sys2Proof.Machine

/-- R203, R206: the bytes of the tile-data sub-region that belong to a row are the row's two bytes. -/
theorem offset_in_row_iff (o : Offset) (t : Fin Config.nTiles) (row : Fin 8) :
    (o.val < Config.tileDataSize ∧ t.val = o.val / Config.tileBytes ∧ row.val = o.val % Config.tileBytes / 2) ↔
      rowByte1 t row = o ∨ rowByte2 t row = o := by
  have ht := t.isLt
  simp only [Fin.ext_iff, rowByte1, rowByte2, Config.tileDataSize, Config.tileBytes, Config.nTiles] at ht ⊢
  omega

section
variable {o o' : Offset} (v v' : Byte) (d : Vdec) {t : Fin Config.nTiles} {row : Fin 8} (col : Fin 8)

/-- A pixel after the write of a byte of its row. -/
theorem Vdec.pixel_write_in_row (h : rowByte1 t row = o ∨ rowByte2 t row = o) :
    (d.write o v).pixel t row col =
      pixelFrom ((d.write o v).read (rowByte1 t row)) ((d.write o v).read (rowByte2 t row)) col := by
  rw [Vdec.pixel_write, if_pos ((offset_in_row_iff ..).mpr h)]

/-- A pixel after the write of a byte outside its row. -/
theorem Vdec.pixel_write_not_in_row (h : ¬ (rowByte1 t row = o ∨ rowByte2 t row = o)) :
    (d.write o v).pixel t row col = d.pixel t row col := by
  rw [Vdec.pixel_write, if_neg (mt (offset_in_row_iff ..).mp h)]

/-- A pixel after two writes: the function of its row's bytes in the final buffer, unless neither write was to its row. -/
theorem Vdec.pixel_write_write :
    ((d.write o v).write o' v').pixel t row col =
      if (rowByte1 t row = o ∨ rowByte2 t row = o) ∨ (rowByte1 t row = o' ∨ rowByte2 t row = o') then
        pixelFrom (((d.write o v).write o' v').read (rowByte1 t row))
          (((d.write o v).write o' v').read (rowByte2 t row)) col
      else d.pixel t row col := by
  by_cases h' : rowByte1 t row = o' ∨ rowByte2 t row = o'
  · rw [if_pos (.inr h'), Vdec.pixel_write_in_row v' _ col h']
  · obtain ⟨hne1, hne2⟩ := not_or.mp h'
    rw [Vdec.pixel_write_not_in_row v' _ col h', Vdec.read_write o', if_neg hne1, Vdec.read_write o', if_neg hne2]
    by_cases h : rowByte1 t row = o ∨ rowByte2 t row = o
    · rw [if_pos (.inl h), Vdec.pixel_write_in_row v d col h]
    · rw [if_neg (not_or.mpr ⟨h, h'⟩), Vdec.pixel_write_not_in_row v d col h]

/-- Writes at two different offsets commute for every byte of the buffer (R211). -/
theorem Vdec.read_write_comm (hne : o ≠ o') (q : Offset) :
    ((d.write o v).write o' v').read q = ((d.write o' v').write o v).read q := by
  simp only [Vdec.read_write]
  by_cases h : q = o
  · rw [if_neg (h ▸ hne), if_pos h, if_pos h]
  · rw [if_neg h, if_neg h]

/-- Writes at two different offsets commute for every pixel (R211): both orders end in the same buffer. -/
theorem Vdec.pixel_write_comm (hne : o ≠ o') :
    ((d.write o v).write o' v').pixel t row col = ((d.write o' v').write o v).pixel t row col := by
  rw [Vdec.pixel_write_write, Vdec.pixel_write_write, Vdec.read_write_comm v v' d hne, Vdec.read_write_comm v v' d hne]
  exact if_congr or_comm rfl rfl
end

end Sys2Proof.Machine
end

section
/-! PROOFS of the family 48_video_tile_decoder.md: its statements, assembled from the layer above. -/

namespace Sys2Proof.Machine

/-- Settles O50: the buffer and every pixel after one write. -/
theorem vramWriteEffect : Obligations.VramWriteEffect :=
  fun o v d => ⟨fun o' => Vdec.read_write o o' v d, fun t row col => Vdec.pixel_write o v d t row col⟩

/-- Settles O51: the buffer and every pixel after two writes, in either order. -/
theorem vramWriteOrderIsIrrelevant : Obligations.VramWriteOrderIsIrrelevant :=
  fun _ _ v v' d hne => ⟨Vdec.read_write_comm v v' d hne, fun _ _ col => Vdec.pixel_write_comm v v' d col hne⟩

end Sys2Proof.Machine
end

section
/-! PROOFS of the family 60_exceptions.md, the layer its statements need. What a Step fetches and reports on either side of
the escape, and so which conditions end the Step of a machine that runs. -/

namespace Sys2Proof.Machine

/-- The escape has no decoding of its own (R84): it is no instruction's opcode. -/
theorem decodeOpcode_escape : decodeOpcode Config.prefixByte false = none :=
  Option.eq_none_iff_forall_ne_some.mpr fun i h => i.opcode_ne_escape (decodeOpcode_eq_some.mp h).symm

section
variable {s : State} {f : Fault}

/-! ### The fetched opcode and the report of its decode failure -/

theorem fetchOpcode_of_escape (h : memRead s.pc s = Config.prefixByte) : fetchOpcode s = memRead (s.pc + 1) s :=
  if_pos (fetchPrefixed_eq_true h)

theorem fetchOpcode_of_ne_escape (h : memRead s.pc s ≠ Config.prefixByte) : fetchOpcode s = memRead s.pc s :=
  if_neg (Bool.eq_false_iff.mp (fetchPrefixed_eq_false h))

theorem decodeFault_of_escape (h : memRead s.pc s = Config.prefixByte) :
    decodeFault s = .decodeFailure [Config.prefixByte, memRead (s.pc + 1) s] true s.pc := by
  rw [decodeFault, fetchOpcode_of_escape h, fetchPrefixed_eq_true h, if_pos rfl]

theorem decodeFault_of_ne_escape (h : memRead s.pc s ≠ Config.prefixByte) :
    decodeFault s = .decodeFailure [memRead s.pc s] false s.pc := by
  rw [decodeFault, fetchOpcode_of_ne_escape h, fetchPrefixed_eq_false h, if_neg Bool.false_ne_true]

/-! ### The conditions that end the Step of a running machine (R230, R231, R246) -/

theorem step_eq_fault_of_running (hrun : s.status = .running) :
    step s = .fault f ↔ decodeOpcode (fetchOpcode s) (fetchPrefixed s) = none ∧ f = decodeFault s ∨
      ∃ i, decodeOpcode (fetchOpcode s) (fetchPrefixed s) = some i ∧ s.halted = true ∧ i ≠ .halt ∧
        f = .undefinedWhileHalted s.pc := by
  rw [step_eq_fault, selectInstr_eq_error]
  simp [hrun]

/-- After the escape every Step is a decode failure: the prefixed table is empty (R84). -/
theorem step_eq_fault_of_escape (hrun : s.status = .running) (h : memRead s.pc s = Config.prefixByte) :
    step s = .fault f ↔ f = .decodeFailure [Config.prefixByte, memRead (s.pc + 1) s] true s.pc := by
  rw [step_eq_fault_of_running hrun, fetchPrefixed_eq_true h, decodeFault_of_escape h]
  simp [decodeOpcode_prefixed]

/-- Without the escape the byte at `pc` decides: it has no decoding, or decodes to what a halted machine must not run. -/
theorem step_eq_fault_of_ne_escape (hrun : s.status = .running) (h : memRead s.pc s ≠ Config.prefixByte) :
    step s = .fault f ↔
      decodeOpcode (memRead s.pc s) false = none ∧ f = .decodeFailure [memRead s.pc s] false s.pc ∨
      s.halted = true ∧ (∃ i, decodeOpcode (memRead s.pc s) false = some i ∧ i ≠ .halt) ∧
        f = .undefinedWhileHalted s.pc := by
  rw [step_eq_fault_of_running hrun, fetchPrefixed_eq_false h, fetchOpcode_of_ne_escape h, decodeFault_of_ne_escape h]
  refine or_congr_right ⟨?_, ?_⟩
  · rintro ⟨i, hdec, hh, hi, hf⟩
    exact ⟨hh, ⟨i, hdec, hi⟩, hf⟩
  · rintro ⟨hh, ⟨i, hdec, hi⟩, hf⟩
    exact ⟨i, hdec, hh, hi, hf⟩
end

end Sys2Proof.Machine
end

section
/-! PROOFS of the family 60_exceptions.md: its statements, assembled from the layer above. -/

namespace Sys2Proof.Machine

/-- Settles O13: by whether the byte at `pc` is the escape, which has no decoding of its own; each side has its own
conditions, so the clauses of the other side fall away. -/
theorem fatalConditionsAreTwo : Obligations.FatalConditionsAreTwo := by
  intro s f hrun
  by_cases hesc : memRead s.pc s = 0xCB
  · have hnone : decodeOpcode 0xCB false = none := decodeOpcode_escape
    simp only [step_eq_fault_of_escape hrun hesc, hesc, hnone, Config.prefixByte, ne_eq, not_true_eq_false, reduceCtorEq,
      false_and, exists_false, and_false, true_and, false_or, or_false]
  · simp only [step_eq_fault_of_ne_escape hrun hesc, hesc, ne_eq, not_false_eq_true, true_and, false_and, false_or]

/-- Settles O14: exec is the operation of the instruction's kind, which is a total function of the state. -/
theorem executionNeverStops : Obligations.ExecutionNeverStops :=
  fun i s => ⟨_, exec_eq_run i s⟩

end Sys2Proof.Machine
end

section
/-! PROOFS of the family 70_reset_and_hazards.md, first layer. What the loader leaves of the reset state (R264). -/

namespace Sys2Proof.Machine

/-- The loader changes memory and the VDEC only: all the rest of the launch state is as after reset. -/
theorem launch_frame (sp : Word) (image : Word → Byte) :
    State.launch sp image =
      { State.resetWith sp with mem := (State.launch sp image).mem, vdec := (State.launch sp image).vdec } :=
  foldl_memWrite_frame image allAddresses (State.resetWith sp)

@[simp] theorem launch_halted (sp : Word) (image : Word → Byte) : (State.launch sp image).halted = false :=
  congrArg State.halted (launch_frame sp image)

@[simp] theorem launch_regs (sp : Word) (image : Word → Byte) :
    (State.launch sp image).regs = ⟨0, 0, 0, 0, 0, 0, 0⟩ :=
  congrArg State.regs (launch_frame sp image)

@[simp] theorem readReg_launch (r : Reg8) (sp : Word) (image : Word → Byte) :
    readReg r (State.launch sp image) = 0 :=
  (readReg_congr (t := State.resetWith sp) (launch_regs sp image) r).trans (readReg_resetWith r sp)

/-- The VDEC's buffer after a launch is the image's window, by INV-MIRROR (R23). -/
@[simp] theorem vramRead_launch (sp : Word) (image : Word → Byte) (o : Offset) :
    (State.launch sp image).vramRead o = image (windowAddr o) :=
  ((launch_inv sp image).mirror o).trans (memRead_launch sp image (windowAddr o))

end Sys2Proof.Machine
end

section
/-! PROOFS of the family 70_reset_and_hazards.md: its statements, assembled from the layer above. -/

namespace Sys2Proof.Machine

/-- Settles O53: each write of the load keeps the mirror, the tiles and the rest, and the load writes every address. -/
theorem launchState : Obligations.LaunchState :=
  fun sp image => ⟨memRead_launch sp image, vramRead_launch sp image, (launch_inv sp image).tile, launch_frame sp image⟩

/-- Settles O54: the launch state runs, is not halted, and has at `pc` the image's byte at the entry. -/
theorem entryPointIsFixed : Obligations.EntryPointIsFixed := by
  refine fun sp image i => ⟨launch_pc sp image, fun r => readReg_launch r sp image, fun hdec => ?_⟩
  have hbyte : memRead (State.launch sp image).pc (State.launch sp image) = image 0x0100 := by
    rw [memRead_launch, launch_pc, Config.entry]
  have hnot : (State.launch sp image).halted ≠ true := Bool.eq_false_iff.mp (launch_halted sp image)
  exact step_eq_exec (selectInstr_of_decodeOpcode (launch_status sp image) (hbyte ▸ hdec) (absurd · hnot))

end Sys2Proof.Machine
end
